-- ==== Sys2Proof/Word.lean ====
section
/-! DEFINITION. The widths of the machine's values (spec/00_scope.md R7, R9): every quantity is unsigned. -/

namespace Sys2Proof

/-- The accumulator and one bit of Memory (R16, `ACC_BITS` = 1). -/
abbrev Bit := BitVec 1

/-- One byte of Memory (R14). -/
abbrev Byte := BitVec 8

/-- The instruction word `w` (R54). -/
abbrev Word := BitVec 16

/-- The operand field (R57, `OPERAND_BITS` = 15). -/
abbrev Operand := BitVec 15

/-- The instruction pointer register (R17, `IP_BITS` = 13; log entry 3). -/
abbrev Ip := BitVec 13

end Sys2Proof
end

