-- ==== Sys2Proof/Config.lean ====
section
/-! DEFINITION. The implementation parameters of spec/00_scope.md R7, the open one (`ACC_RESET`) among them. -/

namespace Sys2Proof.Config

/-- `CAPACITY_BYTES`: the only value this hardware takes (R7, R8; log entry 17). -/
def capacityBytes : Nat := 4096

/-- `CAPACITY_BITS` = 8 x `CAPACITY_BYTES` (R7). -/
def capacityBits : Nat := 8 * capacityBytes

/-- `INSTR_BYTES`: the bytes of an instruction and the step of the advance (R7, R70). -/
def instrBytes : Nat := 2

/-- `IP_RESET` (R7, R28; log entry 12). -/
def ipReset : Ip := 0

/-- `ACC_RESET`: an OPEN PARAMETER, 0 or 1 (R28, decision D4). DESIGN CHOICE: the spec gives no value; `State.reset`
takes 0, `State.resetFrom` takes either, and no statement rests on this value (log entry 1, unsafe). -/
def accReset : Bit := 0

@[simp] theorem capacityBytes_eq : capacityBytes = 4096 := rfl
@[simp] theorem capacityBits_eq : capacityBits = 32768 := rfl
@[simp] theorem instrBytes_eq : instrBytes = 2 := rfl
@[simp] theorem ipReset_eq : ipReset = 0 := rfl

end Sys2Proof.Config
end

