-- ==== Sys2Proof/Syntax.lean ====
section
/-! DEFINITION. The instruction set: exactly LOAD and STORE (spec/00_scope.md R1, spec/opcode_table.json). -/

namespace Sys2Proof

/-- The opcode field, "a two-variant enumeration {LOAD, STORE}" with no default case (R56, R60). -/
inductive Opcode where
  | load
  | store
deriving DecidableEq, Repr

/-- An instruction: each row of the opcode table with its 15-bit operand, an absolute bit address (R57, R81, R82). -/
inductive Instr where
  | load  (a : Operand)
  | store (a : Operand)
deriving DecidableEq, Repr

/-- Which of the two opcodes an instruction has. -/
def Instr.opcode : Instr → Opcode
  | .load _  => .load
  | .store _ => .store

/-- The operand of an instruction. -/
def Instr.operand : Instr → Operand
  | .load a  => a
  | .store a => a

/-- The instruction with a given opcode and operand. -/
def Instr.ofParts : Opcode → Operand → Instr
  | .load, a  => .load a
  | .store, a => .store a

@[simp] theorem Instr.opcode_load (a : Operand) : (Instr.load a).opcode = .load := rfl
@[simp] theorem Instr.opcode_store (a : Operand) : (Instr.store a).opcode = .store := rfl
@[simp] theorem Instr.operand_load (a : Operand) : (Instr.load a).operand = a := rfl
@[simp] theorem Instr.operand_store (a : Operand) : (Instr.store a).operand = a := rfl
@[simp] theorem Instr.ofParts_load (a : Operand) : Instr.ofParts .load a = .load a := rfl
@[simp] theorem Instr.ofParts_store (a : Operand) : Instr.ofParts .store a = .store a := rfl

end Sys2Proof
end

