-- ==== Sys2Proof/WellFormed.lean ====
section
/-! DEFINITION. Which field values make an instruction (spec/30_encoding.md R55 to R57, R62). The types of `Instr` admit
no ill-formed instruction, as R60 asks; the checks are made where an instruction is still two numbers. `Instr.fields` and
`Instr.wellFormed`, in Decode.lean, take an instruction to its numbers. -/

namespace Sys2Proof

/-- An instruction as the two field numbers of R62, before they are known to fit their fields. -/
structure Fields where
  opcode  : Nat
  operand : Nat
deriving DecidableEq, Repr

/-- The checks: the opcode is 0 or 1 (R56), the operand a bit address inside Memory, 0 to 32767 (R57, R44). -/
def Fields.wellFormed (f : Fields) : Bool :=
  decide (f.opcode < 2) && decide (f.operand < Config.capacityBits)

end Sys2Proof
end

