-- ==== Sys2Proof/Decode.lean ====
section
/-! DEFINITION. Decoding and encoding (spec/30_encoding.md): pure, total on every byte pair, with no illegal word
(R58, R60). -/

namespace Sys2Proof

/-- The bit of an opcode: 0 is LOAD, 1 is STORE. The one place of the assignment (R56, decision D8, log entry 11). -/
def Opcode.toBit : Opcode → Bit
  | .load  => 0
  | .store => 1

/-- The opcode of a bit; there is no third case (R60). -/
def Opcode.ofBit (v : Bit) : Opcode := if v = Opcode.load.toBit then .load else .store

/-- The field numbers of an instruction. -/
def Instr.fields (i : Instr) : Fields := ⟨i.opcode.toBit.toNat, i.operand.toNat⟩

/-- An instruction's fields pass the checks. -/
def Instr.wellFormed (i : Instr) : Bool := i.fields.wellFormed

/-- The instruction with opcode bit `o` and operand `a` (R62); nothing for numbers that do not fit. -/
def Fields.toInstr? (f : Fields) : Option Instr :=
  if f.wellFormed then some (Instr.ofParts (Opcode.ofBit (BitVec.ofNat 1 f.opcode)) (BitVec.ofNat 15 f.operand)) else none

/-- The instruction word of two bytes, the first the high one (R54, R39). -/
def wordOf (b0 b1 : Byte) : Word := b0 ++ b1

/-- The first (high) byte of a word (R54). -/
def firstByte (w : Word) : Byte := w.extractLsb' 8 8

/-- The second (low) byte of a word (R54). -/
def secondByte (w : Word) : Byte := w.extractLsb' 0 8

/-- `opcode = b0 >> 7`, one bit (R56). -/
def decodeOpcode (b0 : Byte) : Opcode := Opcode.ofBit ((b0 >>> 7).setWidth 1)

/-- `operand = ((b0 & 0x7F) << 8) | b1` (R57), computed in 15 bits (R76). -/
def decodeOperand (b0 b1 : Byte) : Operand := ((b0 &&& 0x7F).setWidth 15 <<< 8) ||| b1.setWidth 15

/-- The decode phase (R68). -/
def decode (b0 b1 : Byte) : Instr := Instr.ofParts (decodeOpcode b0) (decodeOperand b0 b1)

/-- The decode phase on a word. -/
def decodeWord (w : Word) : Instr := decode (firstByte w) (secondByte w)

/-- Why a byte string is no instruction: fewer than two bytes are left (R53). No word is illegal (R60). -/
inductive DecodeReject where
  | truncated
deriving DecidableEq, Repr

/-- Decoding a byte string: the first instruction and the rest of the string. -/
def decodeBytes : List Byte → Except DecodeReject (Instr × List Byte)
  | b0 :: b1 :: rest => .ok (decode b0 b1, rest)
  | _                => .error .truncated

/-- The encoder (R62): `b0 = (o << 7) | (a >> 8)`, `b1 = a & 0xFF`. -/
def encode (i : Instr) : Byte × Byte :=
  ((i.opcode.toBit.setWidth 8 <<< 7) ||| (i.operand >>> 8).setWidth 8, (i.operand &&& 0xFF).setWidth 8)

/-- The encoded word (R62): `w = (o << 15) | a`. -/
def encodeWord (i : Instr) : Word := (i.opcode.toBit.setWidth 16 <<< 15) ||| i.operand.setWidth 16

/-- One row of the opcode map: a word is the row's instruction when `(w & mask) = match` (R59). -/
structure OpcodeRow where
  opcode  : Opcode
  mask    : Word
  pattern : Word
deriving DecidableEq, Repr

/-- The opcode map (R59, spec/opcode_table.json). -/
def opcodeMap : List OpcodeRow :=
  [⟨.load, 0x8000, 0x0000⟩, ⟨.store, 0x8000, 0x8000⟩]

/-- A word of the map's row. -/
def OpcodeRow.covers (r : OpcodeRow) (w : Word) : Bool := decide (w &&& r.mask = r.pattern)

/-- The word the opcode table numbers `w`: `nbits` bits, those above them zero (log entry 18). -/
def tableWord (nbits w : Nat) : Word := BitVec.ofNat 16 (w % 2 ^ nbits)

/-- What the decoder reads from a word numbered as spec/opcode_table.json numbers it, its bytes laid out as the
hardware stores them (first byte `w[15:8]` at the lower offset). -/
def decodeTableWord (nbits w : Nat) : Option Instr :=
  match decodeBytes [firstByte (tableWord nbits w), secondByte (tableWord nbits w)] with
  | .ok (i, _) => some i
  | .error _   => none

end Sys2Proof
end

