-- ==== Sys2Proof/Machine/Operands.lean ====
section
/-! DEFINITION. The one operand form, absolute bit addressing (spec/41_load_store.md R84), and the bit order within a byte
(spec/20_memory.md R32, R40). -/

namespace Sys2Proof.Machine

/-- `EA = operand`: no base, index, scaling or indirection (R84). -/
def effectiveAddress (a : Operand) : Nat := a.toNat

/-- The byte a bit address lies in (R32). -/
def byteIndex (a : Nat) : Nat := a / 8

/-- The bit of that byte, counted from the least significant (R32, R40). -/
def bitIndex (a : Nat) : Nat := a % 8

/-- The bit address of bit `k` of byte `i` (R32). -/
def bitAddress (i k : Nat) : Nat := 8 * i + k

/-- `(B >> k) & 1` (R33). -/
def bitOfByte (b : Byte) (k : Nat) : Bit := ((b >>> k) &&& 1).setWidth 1

/-- `B | (1 << k)` for `v = 1`, `B & ~(1 << k)` otherwise, kept to 8 bits (R34). -/
def byteWithBit (b : Byte) (k v : Nat) : Byte :=
  if v = 1 then b ||| ((1 : Byte) <<< k) else b &&& ~~~((1 : Byte) <<< k)

end Sys2Proof.Machine
end

