-- ==== Sys2Proof/Machine/State.lean ====
section
/-! DEFINITION. The whole state of the machine, the reasons a step can stop, and the state after reset. -/

namespace Sys2Proof.Machine

/-- Memory: the bytes that differ from what an unlisted byte reads as, as (offset, byte) pairs with offsets strictly
rising (`Memory.wf`, log entry 5). -/
abbrev Memory := List Host.Cell

/-- What an unlisted byte of Memory reads as: "zero-padded if shorter" (spec/10_state.md R27). -/
def Memory.unlisted : Byte := 0

/-- The state is exactly three things (spec/10_state.md R13). -/
structure State where
  /-- Memory, 4096 bytes (R14). -/
  mem : Memory
  /-- The instruction pointer, a byte offset (R17). -/
  ip  : Ip
  /-- The accumulator (R16). -/
  acc : Bit
deriving DecidableEq, Repr

/-- The two Memory errors that are faults; the fetch-phase halt is none (spec/60_exceptions.md R87, R99). A fault leaves
the state unchanged, with no advance (R91, R94). -/
inductive Fault where
  /-- Raised by `bitRead` and `bitWrite` for a bit address of 32768 or more, and by the byte reads for an offset of 4096
  or more (R33 to R36). LOAD and STORE never reach it (R83, R91), and the fetch turns it into the halt (R94). Safe. -/
  | outOfRange
  /-- Raised by `bitWrite` for a value other than 0 or 1 (R34). STORE never reaches it: the accumulator is one bit (R92).
  Safe. -/
  | invalidBitValue
deriving DecidableEq, Repr

/-- Why an instruction has no meaning. -/
inductive Refusal where
  /-- Raised by `exec`'s arm of an instruction that has no meaning yet. No arm raises it: both have theirs. Safe. -/
  | notModelled (mnemonic : String)
deriving DecidableEq, Repr

/-- The machine right after reset with the empty image (spec/70_reset_and_hazards.md R105, R107; log entries 1, 5, 12):
all of Memory zero, `ip` 0, `acc` the open parameter `ACC_RESET`. -/
def State.reset : State := { mem := [], ip := Config.ipReset, acc := Config.accReset }

end Sys2Proof.Machine
end

