-- ==== Sys2Proof/Machine/Ops.lean ====
section
/-! DEFINITION. The operations the instructions and the step are made of: Memory and its primitives (spec/20_memory.md
R33 to R38), the image copy of reset (R105), the fetch, the halt and the advance (spec/40_step_cycle.md R66, R67, R70). -/

namespace Sys2Proof.Machine

/-! ### Memory as a canonical list -/

/-- The canonical form from offset `lo` on: offsets strictly rising and below the capacity, no byte equal to what an
unlisted one reads as. -/
def Memory.wfFrom : Nat → Memory → Bool
  | _, []              => true
  | lo, (x, b) :: rest =>
    decide (lo ≤ x) && decide (x < Config.capacityBytes) && decide (b ≠ Memory.unlisted) && Memory.wfFrom (x + 1) rest

/-- Memory is in its canonical form. -/
def Memory.wf (m : Memory) : Bool := Memory.wfFrom 0 m

/-- `mem[x]` (R14). -/
def Memory.byteAt : Memory → Nat → Byte
  | [], _             => Memory.unlisted
  | (y, b) :: rest, x => if y = x then b else Memory.byteAt rest x

/-- Memory without an entry for offset `x`. -/
def Memory.erase : Memory → Nat → Memory
  | [], _             => []
  | (y, b) :: rest, x => if y = x then Memory.erase rest x else (y, b) :: Memory.erase rest x

/-- Memory with an entry for offset `x` put before the first higher offset. -/
def Memory.insert : Memory → Nat → Byte → Memory
  | [], x, v             => [(x, v)]
  | (y, b) :: rest, x, v => if x < y then (x, v) :: (y, b) :: rest else (y, b) :: Memory.insert rest x v

/-- `mem[x] <- v`, keeping the canonical form. -/
def Memory.setByte (m : Memory) (x : Nat) (v : Byte) : Memory :=
  if v = Memory.unlisted then Memory.erase m x else Memory.insert (Memory.erase m x) x v

/-- The two bytes of a word at offsets `p` and `p + 1`, the first byte lower (R39, R106). -/
def Memory.setWord (m : Memory) (p : Nat) (w : Word) : Memory :=
  Memory.setByte (Memory.setByte m p (firstByte w)) (p + 1) (secondByte w)

/-- The image copy from offset `i` on: bytes past the capacity are dropped (R105). -/
def Memory.loadFrom : Nat → List Byte → Memory
  | _, []        => []
  | i, b :: rest =>
    if Config.capacityBytes ≤ i then []
    else if b = Memory.unlisted then Memory.loadFrom (i + 1) rest
    else (i, b) :: Memory.loadFrom (i + 1) rest

/-- Memory "created once at startup from a loaded image" (R105, R15). -/
def Memory.ofImage (image : List Byte) : Memory := Memory.loadFrom 0 image

/-! ### The Memory primitives -/

/-- `read_byte`, `MemRead(off, 1)` (R35). -/
def memRead1 (m : Memory) (off : Nat) : Except Fault Byte :=
  if Config.capacityBytes ≤ off then .error .outOfRange else .ok (Memory.byteAt m off)

/-- The fetch helper, `MemRead(off, 2)`, first byte first (R36). -/
def memRead2 (m : Memory) (off : Nat) : Except Fault (Byte × Byte) :=
  if Config.capacityBytes ≤ off + 1 then .error .outOfRange
  else .ok (Memory.byteAt m off, Memory.byteAt m (off + 1))

/-- `read_bit`, `BitRead(a)` (R33); the check never wraps or clamps (R37). -/
def bitRead (m : Memory) (a : Nat) : Except Fault Bit :=
  if Config.capacityBytes ≤ byteIndex a then .error .outOfRange
  else .ok (bitOfByte (Memory.byteAt m (byteIndex a)) (bitIndex a))

/-- `write_bit`, `BitWrite(a, v)`, the only mutator (R34, R38). DESIGN CHOICE: the spec gives no order of the two checks
(log entry 7). -/
def bitWrite (m : Memory) (a v : Nat) : Except Fault Memory :=
  if Config.capacityBytes ≤ byteIndex a then .error .outOfRange
  else if v ≠ 0 ∧ v ≠ 1 then .error .invalidBitValue
  else .ok (Memory.setByte m (byteIndex a) (byteWithBit (Memory.byteAt m (byteIndex a)) (bitIndex a) v))

/-! ### Reset from an image -/

/-- `reset(image)` with `ACC_RESET = acc` (R104, R105, R107): construction from any image and either accumulator. -/
def State.resetFrom (acc : Bit) (image : List Byte) : State :=
  { mem := Memory.ofImage image, ip := Config.ipReset, acc := acc }

/-! ### The phases of a step that are not an instruction's -/

/-- `Halted(ip)`: a function of `ip`, compared as integers, not modulo 2^13 (R20, R76). -/
def State.halted (s : State) : Bool := decide (Config.capacityBytes ≤ s.ip.toNat + 1)

/-- The fetch phase (R66): the two bytes at `ip`; none is `Halt(OutOfRange)`, the one Memory error that the core turns
into the halt (R67, R94). -/
def fetch (s : State) : Option (Byte × Byte) :=
  match memRead2 s.mem s.ip.toNat with
  | .ok bytes => some bytes
  | .error _  => none

/-- Taking the halt, the machine's one event (R89, R97): nothing is saved, nothing changes, control goes nowhere. It is
"benign" and no fault (R99), so the step answers the same state. DESIGN CHOICE: that answer's form (log entry 2). -/
def takeHalt (s : State) : Host.Outcome State Fault Refusal := .next s

/-- The advance phase: `ip <- ip + 2` (R70). -/
def State.advance (s : State) : State := { s with ip := s.ip + BitVec.ofNat 13 Config.instrBytes }

/-- The advance after the execute phase; a fault has no advance (R83). -/
def advanceAfter : Host.Outcome State Fault Refusal → Host.Outcome State Fault Refusal
  | .next s    => .next s.advance
  | .fault r   => .fault r
  | .refused r => .refused r

/-- A word placed where the next step fetches; on a halted machine, which fetches nothing, at the reset entry point
(log entry 8). -/
def State.placeWord (s : State) (w : Word) : State :=
  let ip := if s.halted then Config.ipReset else s.ip
  { s with mem := Memory.setWord s.mem ip.toNat w, ip := ip }

end Sys2Proof.Machine
end

