-- ==== Sys2Proof/Machine/LoadStore.lean ====
section
/-! DEFINITION. The execute phase of the two instructions (spec/41_load_store.md R81, R82). Neither reads or writes `ip`
(R69); the advance is the step's (R70). -/

namespace Sys2Proof.Machine

/-- LOAD a: `acc <- BitRead(a)` (R81). -/
def execLoad (a : Operand) (s : State) : Host.Outcome State Fault Refusal :=
  match bitRead s.mem (effectiveAddress a) with
  | .ok v    => .next { s with acc := v }
  | .error f => .fault f

/-- STORE a: `BitWrite(a, acc)` (R82). -/
def execStore (a : Operand) (s : State) : Host.Outcome State Fault Refusal :=
  match bitWrite s.mem (effectiveAddress a) s.acc.toNat with
  | .ok m    => .next { s with mem := m }
  | .error f => .fault f

end Sys2Proof.Machine
end

