-- ==== Sys2Proof/Machine/Step.lean ====
section
/-! DEFINITION. One step: fetch, decode, execute, advance, or the halt (spec/40_step_cycle.md R65). -/

namespace Sys2Proof.Machine

/-- `step()` (R65). -/
def step (s : State) : Host.Outcome State Fault Refusal :=
  match fetch s with
  | none          => takeHalt s
  | some (b0, b1) => advanceAfter (exec (decode b0 b1) s)

/-- `s` with the instruction numbered `w` in the opcode table placed where the next step fetches. -/
def State.withFetchWord (s : State) (nbits w : Nat) : State := s.placeWord (tableWord nbits w)

end Sys2Proof.Machine
end

