-- ==== Sys2Proof/Machine/Observe.lean ====
section
/-! DEFINITION. What the host observes (spec/10_state.md R29, R30): the accessors, the result of a step, and `run` with
its trace records (spec/40_step_cycle.md R71, R73, R74). None of it is state. -/

namespace Sys2Proof.Machine

/-- `current_ip()` (R73). -/
def currentIp (s : State) : Ip := s.ip

/-- `current_accumulator()` (R73). -/
def currentAccumulator (s : State) : Bit := s.acc

/-- The result of a step: the decoded pair, or the signal `Halted` (R71). -/
inductive StepResult where
  | executed (opcode : Opcode) (operand : Operand)
  | halted
deriving DecidableEq, Repr

/-- The result of the step made in state `s`: the pair decoded from the bytes as they were at fetch (R71). -/
def stepResult (s : State) : StepResult :=
  match fetch s with
  | none          => .halted
  | some (b0, b1) => .executed (decode b0 b1).opcode (decode b0 b1).operand

/-- One trace record (R74). -/
structure TraceRecord where
  ipBeforeStep : Ip
  opcode       : Opcode
  operand      : Operand
deriving DecidableEq, Repr

/-- What a run gives: its trace records, and how it ended. -/
structure RunResult where
  records : List TraceRecord
  final   : Host.Outcome State Fault Refusal

/-- A run with a record put before its others. -/
def RunResult.after (r : TraceRecord) (rest : RunResult) : RunResult := ⟨r :: rest.records, rest.final⟩

/-- `run(max_cycles)` (R74): the halting step yields no record and ends the run (log entry 9). -/
def run : Nat → State → RunResult
  | 0, s     => ⟨[], .next s⟩
  | n + 1, s =>
    match stepResult s with
    | .halted               => ⟨[], .next s⟩
    | .executed opcode operand =>
      match step s with
      | .next t    => (run n t).after ⟨s.ip, opcode, operand⟩
      | .fault f   => ⟨[], .fault f⟩
      | .refused r => ⟨[], .refused r⟩

end Sys2Proof.Machine
end

