-- ==== Sys2Proof/Machine/Reference.lean ====
section
/-! DEFINITION. The pseudocode of `step()` in spec/40_step_cycle.md R65, written out on plain numbers, Memory a function of
the byte offset: what the step is held against. It is no part of the machine. -/

namespace Sys2Proof.Machine

/-- `BitWrite(a, v)` on a Memory of numbers (spec/20_memory.md R34); `255 ^^^ x` is the complement of `x` kept to 8 bits. -/
def specBitWrite (mem : Nat → Nat) (a v : Nat) : Nat → Nat := fun i =>
  if i = a / 8 then
    if v = 1 then mem i ||| (1 <<< (a % 8)) else mem i &&& (255 ^^^ (1 <<< (a % 8)))
  else mem i

/-- R65, line by line: the next `mem`, `ip` and `acc`, and the result, none for `Halted`. -/
def specStep (mem : Nat → Nat) (ip acc : Nat) : (Nat → Nat) × Nat × Nat × Option (Nat × Nat) :=
  if ip + 1 ≥ 4096 then (mem, ip, acc, none)
  else
    let b0 := mem ip
    let b1 := mem (ip + 1)
    let opcode := b0 >>> 7
    let operand := ((b0 &&& 0x7F) <<< 8) ||| b1
    if opcode = 0 then (mem, ip + 2, (mem (operand / 8) >>> (operand % 8)) &&& 1, some (opcode, operand))
    else (specBitWrite mem operand acc, ip + 2, acc, some (opcode, operand))

/-- The machine's Memory as numbers. -/
def State.memNat (s : State) : Nat → Nat := fun i => (Memory.byteAt s.mem i).toNat

/-- A step's result as numbers. -/
def StepResult.toNats : StepResult → Option (Nat × Nat)
  | .halted       => none
  | .executed o a => some (o.toBit.toNat, a.toNat)

end Sys2Proof.Machine
end

