-- ==== Sys2Proof/Safety.lean ====
section
/-! DEFINITION. What claims are stated in: the invariant of a run from reset, the states a run reaches, a safe step. -/

namespace Sys2Proof.Machine

/-- The machine is running (not halted) and the two bytes at `ip` are the instruction `i`. -/
def State.AtInstr (s : State) (i : Instr) : Prop :=
  s.ip.toNat + 1 < 4096 ∧ decode (Memory.byteAt s.mem s.ip.toNat) (Memory.byteAt s.mem (s.ip.toNat + 1)) = i

/-- `ip` is a value that a run from reset takes: even, at most 4096 (spec/10_state.md R17, R19). -/
abbrev State.ipInRun (s : State) : Prop := s.ip.toNat % 2 = 0 ∧ s.ip.toNat ≤ 4096

/-- The invariant of a run from reset: canonical Memory, and `ip` even and at most 4096. -/
abbrev State.Inv (s : State) : Prop := Memory.wf s.mem = true ∧ s.ipInRun

/-- `t` follows from `s` by steps. -/
inductive Reaches (s : State) : State → Prop where
  | start : Reaches s s
  | step {t u : State} (h : Reaches s t) (hs : Machine.step t = .next u) : Reaches s u

/-- A state that some run from reset reaches, for some image and some value of `ACC_RESET`. -/
def Reachable (t : State) : Prop := ∃ (acc : Bit) (image : List Byte), Reaches (State.resetFrom acc image) t

/-- A step that neither faults nor is refused. -/
def StepSafe (s : State) : Prop := ∃ t, Machine.step s = .next t

end Sys2Proof.Machine
end

