-- ==== Sys2Proof/Certificates/Slice0/Obligations.lean ====
section
/-! DEFINITION. The statements for the provers. Each docstring names the rule of spec/ it formalises. -/

open Sys2Proof Sys2Proof.Machine

/-! ### Encoding -/

/-- R57: the operand is the low seven bits of the first byte, then the second byte, `w[14:0]`: unsigned, unscaled, at most
32767, and used as the bit address as it stands. -/
def Obligations.OperandIsTheLowFifteenBits : Prop :=
  ∀ b0 b1 : Byte,
    (decode b0 b1).operand.toNat = ((b0.toNat &&& 0x7F) <<< 8) ||| b1.toNat ∧
    (decode b0 b1).operand = (wordOf b0 b1).extractLsb' 0 15 ∧
    (decode b0 b1).operand.toNat ≤ 32767 ∧
    effectiveAddress (decode b0 b1).operand = (decode b0 b1).operand.toNat

/-- R62 (derived there from R56, R57): encoding and decoding are inverse bijections; the bytes and the word are the rule's formulas; the first byte
stands at the lower offset; the source's two examples. -/
def Obligations.EncodeDecodeBijection : Prop :=
  (∀ i : Instr, decode (encode i).1 (encode i).2 = i) ∧
  (∀ b0 b1 : Byte, encode (decode b0 b1) = (b0, b1)) ∧
  (∀ i : Instr,
    (encode i).1.toNat = (i.opcode.toBit.toNat <<< 7) ||| (i.operand.toNat >>> 8) ∧
    (encode i).2.toNat = i.operand.toNat &&& 0xFF ∧
    (encodeWord i).toNat = (i.opcode.toBit.toNat <<< 15) ||| i.operand.toNat ∧
    wordOf (encode i).1 (encode i).2 = encodeWord i) ∧
  (∀ (i : Instr) (m : Memory) (p : Nat),
    Memory.byteAt (Memory.setWord m p (encodeWord i)) p = (encode i).1 ∧
    Memory.byteAt (Memory.setWord m p (encodeWord i)) (p + 1) = (encode i).2) ∧
  encode (.load 5) = (0x00, 0x05) ∧ encode (.store 0) = (0x80, 0x00)

/-- Words of spec/95_test_vectors.md section 2.1, written out from the encoding: a sanity check of the decoder. -/
def Obligations.KnownWordsDecode : Prop :=
  decodeTableWord 16 0x0000 = some (.load 0) ∧
  decodeTableWord 16 0x7FFF = some (.load 32767) ∧
  decodeTableWord 16 0x55AA = some (.load 21930) ∧
  decodeTableWord 16 0x8007 = some (.store 7) ∧
  decodeTableWord 16 0x9234 = some (.store 4660) ∧
  decodeTableWord 16 0xFFFF = some (.store 32767)

/-- R56, R58, R59: the complete opcode map. The opcode is bit 15 of the word; each row of the map covers exactly the words
of its opcode, so the two rows partition all 65536 words. That 0 is LOAD and 1 is STORE is the spec's decision D8 (log
entry 11). -/
def Obligations.OpcodeMapCoversEveryWordOnce : Prop :=
  ∀ w : Word,
    (decodeWord w).opcode.toBit = w.extractLsb' 15 1 ∧
    (decodeWord w).opcode.toBit.toNat = (firstByte w).toNat >>> 7 ∧
    (w.toNat ≤ 0x7FFF → decodeWord w = .load (BitVec.ofNat 15 w.toNat) ∧ (decodeWord w).operand.toNat = w.toNat) ∧
    (0x8000 ≤ w.toNat →
      decodeWord w = .store (BitVec.ofNat 15 (w.toNat - 0x8000)) ∧
      (decodeWord w).operand.toNat = w.toNat - 0x8000) ∧
    (w &&& 0x8000 = 0x0000 ↔ (decodeWord w).opcode = .load) ∧
    (w &&& 0x8000 = 0x8000 ↔ (decodeWord w).opcode = .store) ∧
    (∀ r ∈ opcodeMap, r.covers w = true ↔ (decodeWord w).opcode = r.opcode)

/-! ### Memory and its primitives -/

/-- R32: bit address `a` is bit `a % 8` of byte `a / 8`, counted from the least significant; bit `k` of byte `i` has
address `8 * i + k`; reading it gives that bit. -/
def Obligations.BitAddressNamesOneBit : Prop :=
  (∀ a : Nat, byteIndex a = a / 8 ∧ bitIndex a = a % 8) ∧
  (∀ i k : Nat, k < 8 → byteIndex (8 * i + k) = i ∧ bitIndex (8 * i + k) = k) ∧
  (∀ (m : Memory) (i k : Nat), i < 4096 → k < 8 →
    bitRead m (8 * i + k) = .ok (BitVec.ofBool ((Memory.byteAt m i).getLsbD k)))

/-- R33: `read_bit` gives `(mem[a / 8] >> (a % 8)) & 1`, and fails with OutOfRange exactly for `a >= 32768`. -/
def Obligations.ReadBitGivesTheAddressedBit : Prop :=
  ∀ (m : Memory) (a : Nat),
    (a < 32768 → ∃ v : Bit, bitRead m a = .ok v ∧
      v.toNat = ((Memory.byteAt m (a / 8)).toNat >>> (a % 8)) &&& 1) ∧
    (32768 ≤ a → bitRead m a = .error .outOfRange)

/-- R34: `write_bit` sets or clears the bit by the rule's formula; the bit then reads back, every other bit and byte is as
before; a bit address out of range and a value other than 0 or 1 fail under their own names (where both fail, under one
of the two: the rule gives no order). -/
def Obligations.WriteBitChangesOneBit : Prop :=
  ∀ (m : Memory) (a v : Nat),
    (a < 32768 → v = 0 ∨ v = 1 → ∃ m', bitWrite m a v = .ok m' ∧
      (Memory.byteAt m' (a / 8)).toNat =
        (if v = 1 then (Memory.byteAt m (a / 8)).toNat ||| (1 <<< (a % 8))
         else (Memory.byteAt m (a / 8)).toNat &&& (255 ^^^ (1 <<< (a % 8)))) ∧
      bitRead m' a = .ok (BitVec.ofNat 1 v) ∧
      (∀ b, b ≠ a → bitRead m' b = bitRead m b) ∧
      (∀ x, x ≠ a / 8 → Memory.byteAt m' x = Memory.byteAt m x)) ∧
    (32768 ≤ a → v = 0 ∨ v = 1 → bitWrite m a v = .error .outOfRange) ∧
    (a < 32768 → v ≠ 0 ∧ v ≠ 1 → bitWrite m a v = .error .invalidBitValue) ∧
    (32768 ≤ a → v ≠ 0 ∧ v ≠ 1 → bitWrite m a v = .error .outOfRange ∨ bitWrite m a v = .error .invalidBitValue)

/-- R35, R36: `read_byte` and the two-byte fetch helper give the bytes, first byte first, and fail with OutOfRange exactly
when an offset is 4096 or more. -/
def Obligations.ByteReadsInsideTheCapacity : Prop :=
  ∀ (m : Memory) (off : Nat),
    (off < 4096 → memRead1 m off = .ok (Memory.byteAt m off)) ∧
    (4096 ≤ off → memRead1 m off = .error .outOfRange) ∧
    (off + 1 < 4096 → memRead2 m off = .ok (Memory.byteAt m off, Memory.byteAt m (off + 1))) ∧
    (4096 ≤ off + 1 → memRead2 m off = .error .outOfRange)

/-- Log entry 5 (the model's own representation): two Memories in canonical form that read alike at every offset are equal
data. -/
def Obligations.CanonicalMemoriesAreEqualData : Prop :=
  ∀ m m' : Memory, Memory.wf m = true → Memory.wf m' = true →
    (∀ x, x < 4096 → Memory.byteAt m x = Memory.byteAt m' x) → m = m'

/-- R41 (derived there from R32, R39, R40): where an instruction's fields lie as bit addresses, for reads and for writes. -/
def Obligations.InstructionFieldsAsBitAddresses : Prop :=
  ∀ (m : Memory) (p : Nat), p + 1 < 4096 →
    let i := decode (Memory.byteAt m p) (Memory.byteAt m (p + 1))
    bitRead m (8 * p + 7) = .ok i.opcode.toBit ∧
    (∀ k, k < 7 → bitRead m (8 * p + k) = .ok (BitVec.ofBool (i.operand.getLsbD (8 + k)))) ∧
    (∀ k, k < 8 → bitRead m (8 * p + 8 + k) = .ok (BitVec.ofBool (i.operand.getLsbD k))) ∧
    (∀ m', bitWrite m (8 * p + 7) 1 = .ok m' →
      decode (Memory.byteAt m' p) (Memory.byteAt m' (p + 1)) = .store i.operand) ∧
    (∀ m', bitWrite m (8 * p + 8) 1 = .ok m' →
      (decode (Memory.byteAt m' p) (Memory.byteAt m' (p + 1))).opcode = i.opcode ∧
      (decode (Memory.byteAt m' p) (Memory.byteAt m' (p + 1))).operand = i.operand ||| 1)

/-! ### LOAD and STORE -/

/-- R81: LOAD a, on every state and operand: the next state differs in `acc` alone, which is the addressed bit; its
encoding; a LOAD of its own opcode bit yields 0; the same LOAD again yields the same bit. -/
def Obligations.LoadSetsAccToTheAddressedBit : Prop :=
  (∀ (a : Operand) (s : State), ∃ v : Bit,
    exec (.load a) s = .next { s with acc := v } ∧
    v.toNat = ((Memory.byteAt s.mem (a.toNat / 8)).toNat >>> (a.toNat % 8)) &&& 1 ∧
    bitRead s.mem a.toNat = .ok v ∧
    exec (.load a) { s with acc := v } = .next { s with acc := v }) ∧
  (∀ a : Operand, (encode (.load a)).1.toNat = a.toNat >>> 8 ∧ (encode (.load a)).2.toNat = a.toNat &&& 0xFF) ∧
  (∀ (a : Operand) (s : State), s.AtInstr (.load a) → a.toNat = 8 * s.ip.toNat + 7 →
    ∃ t, step s = .next t ∧ t.acc = 0)

/-- R82: STORE a, on every state and operand: the next state differs in one bit of Memory alone, which is `acc`; its
encoding; what the write leaves when the bit already holds `acc`. -/
def Obligations.StoreWritesAccToTheAddressedBit : Prop :=
  (∀ (a : Operand) (s : State), ∃ m : Memory,
    exec (.store a) s = .next { s with mem := m } ∧
    bitWrite s.mem a.toNat s.acc.toNat = .ok m ∧
    bitRead m a.toNat = .ok s.acc ∧
    (∀ b, b ≠ a.toNat → bitRead m b = bitRead s.mem b) ∧
    (bitRead s.mem a.toNat = .ok s.acc → ∀ x, Memory.byteAt m x = Memory.byteAt s.mem x)) ∧
  (∀ a : Operand,
    (encode (.store a)).1.toNat = 0x80 ||| (a.toNat >>> 8) ∧ (encode (.store a)).2.toNat = a.toNat &&& 0xFF)

/-- R81, R82, R69, the frame: the execute phase never writes `ip`; LOAD leaves every byte of Memory; STORE leaves `acc` and
every byte but the one its effective address lies in, and of that byte every bit but the addressed one. -/
def Obligations.ExecuteFrame : Prop :=
  (∀ (a : Operand) (s t : State), exec (.load a) s = .next t →
    t.ip = s.ip ∧ ∀ x, Memory.byteAt t.mem x = Memory.byteAt s.mem x) ∧
  (∀ (a : Operand) (s t : State), exec (.store a) s = .next t →
    t.ip = s.ip ∧ t.acc = s.acc ∧
    (∀ x, x ≠ byteIndex (effectiveAddress a) → Memory.byteAt t.mem x = Memory.byteAt s.mem x) ∧
    (∀ k, k < 8 → k ≠ bitIndex (effectiveAddress a) →
      (Memory.byteAt t.mem (byteIndex (effectiveAddress a))).getLsbD k =
        (Memory.byteAt s.mem (byteIndex (effectiveAddress a))).getLsbD k))

/-- R83, R44: every operand is a valid bit address, so no instruction faults or is refused, in any state. -/
def Obligations.NoInstructionFaults : Prop :=
  (∀ a : Operand, byteIndex (effectiveAddress a) < 4096) ∧
  (∀ (i : Instr) (s : State), ∃ t, exec i s = .next t)

/-- R82, the no-change case on canonical Memory (log entry 5): a STORE of the bit already held leaves the very same
state. -/
def Obligations.StoreOfHeldBitIsIdentity : Prop :=
  ∀ (a : Operand) (s : State), Memory.wf s.mem = true → bitRead s.mem a.toNat = .ok s.acc →
    exec (.store a) s = .next s

/-- R85 (derived there from R31, R41): a LOAD whose address lies in an instruction's bytes reads that instruction's opcode or operand bit. -/
def Obligations.LoadReadsInstructionBits : Prop :=
  ∀ (s : State) (p : Nat) (a : Operand), p + 1 < 4096 →
    let i := decode (Memory.byteAt s.mem p) (Memory.byteAt s.mem (p + 1))
    (a.toNat = 8 * p + 7 → exec (.load a) s = .next { s with acc := if i.opcode = .store then 1 else 0 }) ∧
    (∀ k, k < 7 → a.toNat = 8 * p + k →
      exec (.load a) s = .next { s with acc := BitVec.ofBool (i.operand.getLsbD (8 + k)) }) ∧
    (∀ k, k < 8 → a.toNat = 8 * p + 8 + k →
      exec (.load a) s = .next { s with acc := BitVec.ofBool (i.operand.getLsbD k) })

/-! ### The step -/

/-- R65, R68: when the bytes at `ip` decode to `i`, the step is the execute phase of `i`, and after it the advance. -/
def Obligations.StepRunsTheDecodedInstruction : Prop :=
  ∀ (s : State) (i : Instr), s.AtInstr i →
    step s = advanceAfter (exec i s) ∧ stepResult s = .executed i.opcode i.operand ∧
    ∀ t, exec i s = .next t → step s = .next { t with ip := s.ip + 2 }

/-- R65: the step and its result are those of the rule's pseudocode, read on plain numbers, in every state. -/
def Obligations.StepRefinesThePseudocode : Prop :=
  ∀ s : State, ∃ t, step s = .next t ∧
    (t.memNat, t.ip.toNat, t.acc.toNat, (stepResult s).toNats) = specStep s.memNat s.ip.toNat s.acc.toNat

/-- R67: the step halts exactly when `ip + 1 >= 4096`; then its result is `Halted` and its one next state (R65) is the
same `mem`, `ip` and `acc`. -/
def Obligations.HaltChangesNothing : Prop :=
  ∀ s : State,
    (s.ip.toNat + 1 ≥ 4096 → stepResult s = .halted ∧ step s = .next s) ∧
    (s.ip.toNat + 1 < 4096 → stepResult s ≠ .halted)

/-- R90: once a step has returned `Halted`, every later step also returns `Halted` and changes nothing. -/
def Obligations.HaltedPersists : Prop :=
  ∀ s : State, stepResult s = .halted →
    ∀ n : Nat, Host.Core.run Sys2Proof.core n s = .next s

/-- R70: every completed step, LOAD or STORE, advances `ip` by 2, without overflow or wrap. -/
def Obligations.EveryCompletedStepAdvancesByTwo : Prop :=
  ∀ s : State, s.ip.toNat + 1 < 4096 →
    ∃ t, step s = .next t ∧ t.ip.toNat = s.ip.toNat + 2 ∧ t.ip.toNat ≤ 4096

/-- R38, R16: over a whole step a bit of Memory changes only by a STORE to that very bit, and `acc` only by a LOAD. -/
def Obligations.OnlyStoreWritesMemoryOnlyLoadWritesAcc : Prop :=
  ∀ s t : State, step s = .next t →
    (∀ b, bitRead t.mem b ≠ bitRead s.mem b →
      b < 32768 ∧ stepResult s = .executed .store (BitVec.ofNat 15 b)) ∧
    (t.acc ≠ s.acc → ∃ a, stepResult s = .executed .load a)

/-- R50 (derived there from the unified Memory, decision D6, log entry 14): after a STORE, any fetch from that Memory, at any offset and from the very next step on, sees the stored bit and
otherwise the bits as before. -/
def Obligations.FetchSeesTheStore : Prop :=
  ∀ (s t u : State) (a : Operand), s.AtInstr (.store a) → step s = .next t →
    u.mem = t.mem → u.ip.toNat + 1 < 4096 →
    ∃ c0 c1 : Byte, fetch u = some (c0, c1) ∧
      ∀ k, k < 8 →
        c0.getLsbD k = (if a.toNat = 8 * u.ip.toNat + k then s.acc.getLsbD 0
          else (Memory.byteAt s.mem u.ip.toNat).getLsbD k) ∧
        c1.getLsbD k = (if a.toNat = 8 * u.ip.toNat + 8 + k then s.acc.getLsbD 0
          else (Memory.byteAt s.mem (u.ip.toNat + 1)).getLsbD k)

/-- R51 (derived there from R50, R65): a STORE into its own two bytes writes Memory like any other STORE, but its own step uses the old opcode and
operand, and `ip` moves past the changed bytes; with the rule's example. -/
def Obligations.StoreIntoItsOwnBytes : Prop :=
  (∀ (s : State) (a : Operand), s.AtInstr (.store a) →
    8 * s.ip.toNat ≤ a.toNat → a.toNat ≤ 8 * s.ip.toNat + 15 →
    stepResult s = .executed .store a ∧
    ∃ t, step s = .next t ∧ t.ip.toNat = s.ip.toNat + 2 ∧ t.acc = s.acc ∧
      bitRead t.mem a.toNat = .ok s.acc ∧ ∀ b, b ≠ a.toNat → bitRead t.mem b = bitRead s.mem b) ∧
  (∀ s : State, s.ip = 0 → s.acc = 0 → Memory.byteAt s.mem 0 = 0x80 → Memory.byteAt s.mem 1 = 0x07 →
    stepResult s = .executed .store 7 ∧
    ∃ t, step s = .next t ∧ t.ip = 2 ∧ Memory.byteAt t.mem 0 = 0x00)

/-- R79 (derived there from R75, R27, R81): a zero slot executes as LOAD 0; when the last slot is zero as it is reached, the accumulator at the halt is bit 0
of `mem[0]` as it then stands. -/
def Obligations.ZeroSlotExecutesLoadZero : Prop :=
  (∀ s : State, s.ip.toNat + 1 < 4096 →
    Memory.byteAt s.mem s.ip.toNat = 0 → Memory.byteAt s.mem (s.ip.toNat + 1) = 0 →
    stepResult s = .executed .load 0 ∧
    ∃ t, step s = .next t ∧ t.mem = s.mem ∧ bitRead t.mem 0 = .ok t.acc) ∧
  (∀ (acc : Bit) (image : List Byte) (s : State),
    Host.Core.run Sys2Proof.core 2047 (State.resetFrom acc image) = .next s →
    Memory.byteAt s.mem 4094 = 0 → Memory.byteAt s.mem 4095 = 0 →
    ∃ t, Host.Core.run Sys2Proof.core 2048 (State.resetFrom acc image) = .next t ∧
      stepResult t = .halted ∧ bitRead t.mem 0 = .ok t.acc)

/-! ### Reset -/

/-- R27, R105: after reset, byte `i` is the image's for `i < min(len, 4096)` and 0 from there to the end of Memory, for an
image of any length; `ip` is 0 and `acc` is `ACC_RESET`, either value. -/
def Obligations.ResetCopiesTheImage : Prop :=
  ∀ (acc : Bit) (image : List Byte),
    (∀ i, i < min image.length 4096 →
      some (Memory.byteAt (State.resetFrom acc image).mem i) = image[i]?) ∧
    (∀ i, min image.length 4096 ≤ i → i < 4096 → Memory.byteAt (State.resetFrom acc image).mem i = 0) ∧
    (State.resetFrom acc image).ip = 0 ∧ (State.resetFrom acc image).acc = acc

/-- R106, property P5 (equal states as data rest on the canonical form, log entry 5): image bytes past the first 4096 are ignored and missing bytes default to zero, so cutting them off or
writing the zeros out gives the very same state. -/
def Obligations.ImageIsTruncatedAndZeroPadded : Prop :=
  ∀ (acc : Bit) (image : List Byte),
    State.resetFrom acc (image.take 4096) = State.resetFrom acc image ∧
    ∀ n, State.resetFrom acc (image ++ List.replicate n 0) = State.resetFrom acc image

/-- R107, R28 (`ip` = 0 is the spec's decision D3, log entry 12): after reset the machine is not halted and its first step fetches `mem[0]` and `mem[1]`, for either `ACC_RESET`
and any image. -/
def Obligations.FirstStepFetchesOffsetZero : Prop :=
  ∀ (acc : Bit) (image : List Byte),
    (State.resetFrom acc image).ip = 0 ∧ (State.resetFrom acc image).acc = acc ∧
    stepResult (State.resetFrom acc image) ≠ .halted ∧
    fetch (State.resetFrom acc image) = some (image.getD 0 0, image.getD 1 0)

/-- The state after reset is the reset with the empty image (log entry 5: the model's choice of the image) and the model's
value of the open `ACC_RESET` (log entry 1): every byte is 0 and `ip` is 0. Nothing is said of `acc`. -/
def Obligations.ResetStateIsTheEmptyImage : Prop :=
  State.reset = State.resetFrom Config.accReset [] ∧
  State.reset.ip = 0 ∧ ∀ x, Memory.byteAt State.reset.mem x = 0

/-! ### Runs and invariants -/

/-- The invariant (canonical Memory, log entry 5; `ip` even and at most 4096, R17) is kept by every step from every state
that meets it. -/
def Obligations.StepKeepsTheInvariant : Prop :=
  ∀ s t : State, s.Inv → step s = .next t → t.Inv

/-- The invariant holds at `State.reset` and after the reset with any image and either `ACC_RESET`. -/
def Obligations.ResetMeetsTheInvariant : Prop :=
  State.reset.Inv ∧ ∀ (acc : Bit) (image : List Byte), (State.resetFrom acc image).Inv

/-- Canonical Memory alone is kept by every step from every state, at an odd `ip` too (R19, R42), so equal Memories stay
equal data. -/
def Obligations.StepKeepsMemoryCanonical : Prop :=
  ∀ s t : State, Memory.wf s.mem = true → step s = .next t → Memory.wf t.mem = true

/-- R17, R20, R65: in every state that a run from any image and either `ACC_RESET` reaches, `ip` is an even number at most
4096, the machine is halted only at 4096, and the next step neither faults nor is refused. -/
def Obligations.ReachableStatesAreSafe : Prop :=
  ∀ t : State, Reachable t →
    t.ip.toNat % 2 = 0 ∧ t.ip.toNat ≤ 4096 ∧ (stepResult t = .halted ↔ t.ip.toNat = 4096) ∧ StepSafe t

/-- R75 (derived there from R67, R70, R28): from the reset state, for every image and either `ACC_RESET`, the machine makes exactly 2048 completed steps, at
`ip` = 0, 2, ..., 4094, and then every further step returns `Halted` with `ip` = 4096. -/
def Obligations.RunFromResetMakes2048Steps : Prop :=
  ∀ (acc : Bit) (image : List Byte) (n : Nat),
    (run n (State.resetFrom acc image)).records.map (fun r => r.ipBeforeStep.toNat) =
      (List.range (min n 2048)).map (fun k => 2 * k) ∧
    ∃ t, (run n (State.resetFrom acc image)).final = .next t ∧ t.ip.toNat = 2 * min n 2048 ∧
      (stepResult t = .halted ↔ 2048 ≤ n) ∧
      (2048 ≤ n → ∀ k, Host.Core.run Sys2Proof.core k t = .next t)

/-- R74: `run(n)` adds no behaviour of its own: its final state is that of `n` steps, and its records are, in order, the
results of the steps that do not halt, each with the `ip` before it, at most `n` of them. That the halting step yields no
record is the spec's decision D12 (log entry 9). -/
def Obligations.RunIsItsSteps : Prop :=
  ∀ (n : Nat) (s : State),
    (run n s).final = Host.Core.run Sys2Proof.core n s ∧
    (run n s).records.length ≤ n ∧
    ∀ (k : Nat) (r : TraceRecord),
      (run n s).records[k]? = some r ↔
        k < n ∧ ∃ t : State, Host.Core.run Sys2Proof.core k s = .next t ∧
          stepResult t = .executed r.opcode r.operand ∧ r.ipBeforeStep = t.ip

/-- R65, R67, R70, read on every state: the machine is halted after at most 2048 steps. That a start at an odd or otherwise
unreachable `ip` steps like any other is log entry 4 (DEDUCED from R19, R42 and R65, the spec's decision D7); R75 and R77
speak of runs from reset only. -/
def Obligations.EveryRunHaltsWithin2048Steps : Prop :=
  ∀ s : State, ∃ t : State, Host.Core.run Sys2Proof.core 2048 s = .next t ∧ stepResult t = .halted

/-- R109 (derived there from R28, R82): a run whose first instruction is a LOAD does not depend on `ACC_RESET`: from its first step on, everything
it shows and the state it ends in are the same for both values. -/
def Obligations.FirstLoadHidesAccReset : Prop :=
  ∀ (image : List Byte) (n : Nat), (image.getD 0 0).toNat < 128 → 0 < n →
    run n (State.resetFrom 0 image) = run n (State.resetFrom 1 image)

/-- R86, R81: of all of Memory a LOAD lets only the addressed bit reach `acc`, and nothing of the old `acc`. -/
def Obligations.LoadLetsOneBitThrough : Prop :=
  ∀ (a : Operand) (s u : State), bitRead s.mem a.toNat = bitRead u.mem a.toNat →
    ∃ v : Bit, exec (.load a) s = .next { s with acc := v } ∧ exec (.load a) u = .next { u with acc := v }

/-- Log entry 8 (the model's placing of a word): for every state, halted or not, and every instruction, the very next step
of `withFetchWord` is that instruction, run and advanced past. -/
def Obligations.PlacedWordIsRunNext : Prop :=
  ∀ (s : State) (i : Instr),
    let u := s.withFetchWord 16 (encodeWord i).toNat
    u.AtInstr i ∧ u.acc = s.acc ∧ (s.ip.toNat + 1 < 4096 → u.ip = s.ip) ∧
    (∀ x, x ≠ u.ip.toNat → x ≠ u.ip.toNat + 1 → Memory.byteAt u.mem x = Memory.byteAt s.mem x) ∧
    step u = advanceAfter (exec i u)
end

