-- ==== Sys2Proof/Laws/Bits.lean ====
section
/-! SUPPORT. Bits of a byte: what a read of bit `k` gives, and what a write of bit `k` leaves. -/

namespace Sys2Proof.Machine

theorem bitIndex_lt (a : Nat) : bitIndex a < 8 := Nat.mod_lt _ (by decide)

/-- A bit address is the bit address of its own byte and bit. -/
theorem bitAddress_byteIndex_bitIndex (a : Nat) : bitAddress (byteIndex a) (bitIndex a) = a := by
  unfold bitAddress byteIndex bitIndex; omega

@[simp] theorem byteIndex_bitAddress (i : Nat) {k : Nat} (hk : k < 8) : byteIndex (bitAddress i k) = i := by
  unfold byteIndex bitAddress; omega

@[simp] theorem bitIndex_bitAddress (i : Nat) {k : Nat} (hk : k < 8) : bitIndex (bitAddress i k) = k := by
  unfold bitIndex bitAddress; omega

@[simp] theorem effectiveAddress_eq (a : Operand) : effectiveAddress a = a.toNat := rfl

theorem byteIndex_toNat_lt (a : Operand) : byteIndex a.toNat < 4096 := by
  have := a.isLt
  unfold byteIndex; omega

theorem byteIndex_operand_lt (a : Operand) : byteIndex (effectiveAddress a) < 4096 := by
  have := a.isLt
  unfold byteIndex effectiveAddress; omega

/-- The bit read, as the spec's number `(B >> k) & 1`. -/
theorem bitOfByte_toNat (b : Byte) (k : Nat) : (bitOfByte b k).toNat = (b.toNat >>> k) &&& 1 := by
  unfold bitOfByte
  simp [BitVec.toNat_ushiftRight]

theorem bitOfByte_eq_ofBool (b : Byte) (k : Nat) : bitOfByte b k = BitVec.ofBool (b.getLsbD k) := by
  apply BitVec.eq_of_toNat_eq
  rw [bitOfByte_toNat, BitVec.toNat_ofBool, BitVec.getLsbD, Nat.testBit, Nat.and_comm]
  rcases Nat.mod_two_eq_zero_or_one (b.toNat >>> k) with h | h <;> simp [h]

theorem byteWithBit_getLsbD (b : Byte) {k j : Nat} (hk : k < 8) (hj : j < 8) (v : Bit) :
    (byteWithBit b k v.toNat).getLsbD j = if j = k then v.getLsbD 0 else b.getLsbD j := by
  have hone : ((1 : Byte) <<< k).getLsbD j = decide (j = k) := by
    rw [BitVec.getLsbD_shiftLeft]
    by_cases hjk : j = k
    · subst hjk; simp [hj]
    · by_cases hlt : j < k
      · simp [hjk, hlt]
      · have : j - k ≠ 0 := by omega
        simp [BitVec.getLsbD_one, hjk, this]
  have hv : v = 0 ∨ v = 1 := by revert v; decide
  rcases hv with rfl | rfl
  · rw [byteWithBit, if_neg (by decide), BitVec.getLsbD_and, BitVec.getLsbD_not, hone]
    by_cases hjk : j = k <;> simp [hjk, hj]
  · rw [byteWithBit, if_pos (by decide), BitVec.getLsbD_or, hone]
    by_cases hjk : j = k <;> simp [hjk]

/-- Reading the written bit gives the value, and every other bit of the byte as before. -/
theorem bitOfByte_byteWithBit (b : Byte) {k j : Nat} (hk : k < 8) (hj : j < 8) (v : Bit) :
    bitOfByte (byteWithBit b k v.toNat) j = if j = k then v else bitOfByte b j := by
  have hv : BitVec.ofBool (v.getLsbD 0) = v := by revert v; decide
  rw [bitOfByte_eq_ofBool, byteWithBit_getLsbD b hk hj]
  split
  · exact hv
  · exact (bitOfByte_eq_ofBool b j).symm

/-- The written byte is the old one when the bit already holds the value. -/
theorem byteWithBit_same (b : Byte) {k : Nat} (hk : k < 8) : byteWithBit b k (bitOfByte b k).toNat = b := by
  apply BitVec.eq_of_getLsbD_eq
  intro j hj
  rw [byteWithBit_getLsbD b hk hj, bitOfByte_eq_ofBool]
  split
  · subst_vars; simp
  · rfl

/-- The written byte as a number, the spec's formula of `write_bit`. -/
theorem byteWithBit_toNat (b : Byte) {k : Nat} (hk : k < 8) (v : Nat) :
    (byteWithBit b k v).toNat =
      if v = 1 then b.toNat ||| (1 <<< k) else b.toNat &&& (255 ^^^ (1 <<< k)) := by
  have hlt : (1 <<< k) % 2 ^ 8 = 1 <<< k := by
    rw [Nat.shiftLeft_eq, one_mul]
    exact Nat.mod_eq_of_lt (Nat.pow_lt_pow_right (by decide) hk)
  have hnot : (~~~((1 : Byte) <<< k)).toNat = 255 ^^^ (1 <<< k) := by
    interval_cases k <;> rfl
  unfold byteWithBit
  split
  · rw [BitVec.toNat_or, BitVec.toNat_shiftLeft]; exact congrArg (b.toNat ||| ·) hlt
  · rw [BitVec.toNat_and, hnot]

end Sys2Proof.Machine
end

