-- ==== Sys2Proof/Laws/Decode.lean ====
section
/-! SUPPORT. The encoding as arithmetic: the fields, bytes and words as numbers. -/

namespace Sys2Proof

@[simp] theorem Opcode.toBit_load : Opcode.load.toBit = 0 := rfl
@[simp] theorem Opcode.toBit_store : Opcode.store.toBit = 1 := rfl

@[simp] theorem Opcode.ofBit_toBit (o : Opcode) : Opcode.ofBit o.toBit = o := by cases o <;> rfl

@[simp] theorem Opcode.toBit_ofBit (v : Bit) : (Opcode.ofBit v).toBit = v := by revert v; decide

theorem wordOf_toNat (b0 b1 : Byte) : (wordOf b0 b1).toNat = b0.toNat * 256 + b1.toNat := by
  have h1 := b1.isLt
  simp only [wordOf, BitVec.toNat_append]
  rw [← Nat.shiftLeft_add_eq_or_of_lt h1, Nat.shiftLeft_eq]

theorem firstByte_toNat (w : Word) : (firstByte w).toNat = w.toNat / 256 := by
  have := w.isLt
  simp only [firstByte, BitVec.extractLsb'_toNat, Nat.shiftRight_eq_div_pow]
  omega

theorem secondByte_toNat (w : Word) : (secondByte w).toNat = w.toNat % 256 := by
  simp [secondByte, BitVec.extractLsb'_toNat]

@[simp] theorem firstByte_wordOf (b0 b1 : Byte) : firstByte (wordOf b0 b1) = b0 := by
  apply BitVec.eq_of_toNat_eq
  have := b1.isLt
  rw [firstByte_toNat, wordOf_toNat]; omega

@[simp] theorem secondByte_wordOf (b0 b1 : Byte) : secondByte (wordOf b0 b1) = b1 := by
  apply BitVec.eq_of_toNat_eq
  have := b1.isLt
  rw [secondByte_toNat, wordOf_toNat]; omega

@[simp] theorem wordOf_firstByte_secondByte (w : Word) : wordOf (firstByte w) (secondByte w) = w := by
  apply BitVec.eq_of_toNat_eq
  rw [wordOf_toNat, firstByte_toNat, secondByte_toNat]; omega

/-- The opcode bit is bit 7 of the first byte. -/
theorem decodeOpcode_eq (b0 : Byte) : decodeOpcode b0 = if b0.toNat < 128 then .load else .store := by
  revert b0; decide

/-- The operand as a number: the low seven bits of the first byte, then the second byte. -/
theorem decodeOperand_toNat (b0 b1 : Byte) : (decodeOperand b0 b1).toNat = b0.toNat % 128 * 256 + b1.toNat := by
  have h1 := b1.isLt
  have hlow : (b0 &&& 0x7F).toNat = b0.toNat % 128 := by revert b0; decide
  have hlt : b0.toNat % 128 < 128 := Nat.mod_lt _ (by decide)
  simp only [decodeOperand, BitVec.toNat_or, BitVec.toNat_shiftLeft, BitVec.toNat_setWidth, hlow]
  rw [Nat.mod_eq_of_lt (show b0.toNat % 128 < 2 ^ 15 by omega), Nat.mod_eq_of_lt (show b1.toNat < 2 ^ 15 by omega),
    Nat.mod_eq_of_lt (show (b0.toNat % 128) <<< 8 < 2 ^ 15 by rw [Nat.shiftLeft_eq]; omega),
    ← Nat.shiftLeft_add_eq_or_of_lt h1, Nat.shiftLeft_eq]

@[simp] theorem decode_opcode (b0 b1 : Byte) : (decode b0 b1).opcode = decodeOpcode b0 := by
  unfold decode; cases decodeOpcode b0 <;> rfl

@[simp] theorem decode_operand (b0 b1 : Byte) : (decode b0 b1).operand = decodeOperand b0 b1 := by
  unfold decode; cases decodeOpcode b0 <;> rfl

/-- An instruction is its opcode and its operand. -/
theorem Instr.ext_parts {i j : Instr} (ho : i.opcode = j.opcode) (ha : i.operand = j.operand) : i = j := by
  cases i <;> cases j <;> simp_all

theorem Opcode.toBit_toNat_lt (o : Opcode) : o.toBit.toNat < 2 := o.toBit.isLt

theorem encode_fst_toNat (i : Instr) : (encode i).1.toNat = i.opcode.toBit.toNat * 128 + i.operand.toNat / 256 := by
  have ha := i.operand.isLt
  have hd : i.operand.toNat / 256 < 128 := by omega
  have hw : (i.operand.toNat >>> 8) % 2 ^ 8 = i.operand.toNat / 256 := by
    rw [Nat.shiftRight_eq_div_pow]; omega
  have ho : ((i.opcode.toBit.toNat % 2 ^ 8) <<< 7) % 2 ^ 8 = i.opcode.toBit.toNat <<< 7 := by
    cases i.opcode <;> decide
  simp only [encode, BitVec.toNat_or, BitVec.toNat_shiftLeft, BitVec.toNat_setWidth, BitVec.toNat_ushiftRight]
  rw [hw, ho, ← Nat.shiftLeft_add_eq_or_of_lt hd, Nat.shiftLeft_eq]

theorem encode_snd_toNat (i : Instr) : (encode i).2.toNat = i.operand.toNat % 256 := by
  have h : ∀ n : Nat, n &&& 255 = n % 256 := fun n => Nat.and_two_pow_sub_one_eq_mod n 8
  simp [encode, h]

theorem encodeWord_toNat (i : Instr) : (encodeWord i).toNat = i.opcode.toBit.toNat * 32768 + i.operand.toNat := by
  have ha : i.operand.toNat < 2 ^ 15 := i.operand.isLt
  have ho : ((i.opcode.toBit.toNat % 2 ^ 16) <<< 15) % 2 ^ 16 = i.opcode.toBit.toNat <<< 15 := by
    cases i.opcode <;> decide
  simp only [encodeWord, BitVec.toNat_or, BitVec.toNat_shiftLeft, BitVec.toNat_setWidth]
  rw [ho, Nat.mod_eq_of_lt (show i.operand.toNat < 2 ^ 16 by omega), ← Nat.shiftLeft_add_eq_or_of_lt ha,
    Nat.shiftLeft_eq]

/-- The encoded word is the two encoded bytes, the first high. -/
theorem wordOf_encode (i : Instr) : wordOf (encode i).1 (encode i).2 = encodeWord i := by
  apply BitVec.eq_of_toNat_eq
  rw [wordOf_toNat, encode_fst_toNat, encode_snd_toNat, encodeWord_toNat]; omega

end Sys2Proof
end

