-- ==== Sys2Proof/Laws/Memory.lean ====
section
/-! SUPPORT. The laws of Memory: read after write for every list, and the canonical form kept by every operation. -/

namespace Sys2Proof.Machine

/-- No entry for offset `x`. -/
def Memory.Lacks (m : Memory) (x : Nat) : Prop := ∀ c ∈ m, c.1 ≠ x

theorem Memory.byteAt_of_lacks {m : Memory} {x : Nat} (h : Memory.Lacks m x) :
    Memory.byteAt m x = Memory.unlisted := by
  induction m with
  | nil => rfl
  | cons c rest ih =>
    have hne : c.1 ≠ x := h c (by simp)
    simp only [Memory.byteAt, if_neg hne]
    exact ih fun d hd => h d (by simp [hd])

theorem Memory.erase_lacks (m : Memory) (x : Nat) : Memory.Lacks (Memory.erase m x) x := by
  induction m with
  | nil => intro c hc; simp [Memory.erase] at hc
  | cons c rest ih =>
    by_cases hx : c.1 = x
    · simpa only [Memory.erase, if_pos hx] using ih
    · simp only [Memory.erase, if_neg hx]
      intro d hd
      rcases List.mem_cons.mp hd with rfl | hd
      · exact hx
      · exact ih d hd

theorem Memory.byteAt_erase_ne (m : Memory) {x y : Nat} (h : y ≠ x) :
    Memory.byteAt (Memory.erase m x) y = Memory.byteAt m y := by
  induction m with
  | nil => rfl
  | cons c rest ih =>
    by_cases hx : c.1 = x
    · have hy : c.1 ≠ y := fun e => h (e.symm.trans hx)
      simp only [Memory.erase, if_pos hx, Memory.byteAt, if_neg hy, ih]
    · simp only [Memory.erase, if_neg hx, Memory.byteAt, ih]

theorem Memory.byteAt_insert {m : Memory} {x : Nat} (hm : Memory.Lacks m x) (v : Byte) (y : Nat) :
    Memory.byteAt (Memory.insert m x v) y = if y = x then v else Memory.byteAt m y := by
  induction m with
  | nil =>
    by_cases h : y = x
    · simp [Memory.insert, Memory.byteAt, h]
    · simp [Memory.insert, Memory.byteAt, h, Ne.symm h]
  | cons c rest ih =>
    have hc : c.1 ≠ x := hm c (by simp)
    have ih := ih fun d hd => hm d (by simp [hd])
    by_cases hlt : x < c.1
    · by_cases h : y = x
      · simp [Memory.insert, Memory.byteAt, hlt, h]
      · simp [Memory.insert, Memory.byteAt, hlt, h, Ne.symm h]
    · simp only [Memory.insert, if_neg hlt, Memory.byteAt, ih]
      by_cases hy : c.1 = y
      · have : y ≠ x := fun e => hc (hy.trans e)
        simp [hy, this]
      · simp [hy]

/-- Read after write: the written byte, and every other byte as before. -/
theorem Memory.byteAt_setByte (m : Memory) (x : Nat) (v : Byte) (y : Nat) :
    Memory.byteAt (Memory.setByte m x v) y = if y = x then v else Memory.byteAt m y := by
  unfold Memory.setByte
  by_cases hv : v = Memory.unlisted
  · rw [if_pos hv]
    by_cases h : y = x
    · rw [if_pos h, h, Memory.byteAt_of_lacks (Memory.erase_lacks m x), hv]
    · rw [if_neg h, Memory.byteAt_erase_ne m h]
  · rw [if_neg hv, Memory.byteAt_insert (Memory.erase_lacks m x)]
    by_cases h : y = x
    · rw [if_pos h, if_pos h]
    · rw [if_neg h, if_neg h, Memory.byteAt_erase_ne m h]

@[simp] theorem Memory.byteAt_setByte_self (m : Memory) (x : Nat) (v : Byte) :
    Memory.byteAt (Memory.setByte m x v) x = v := by
  rw [Memory.byteAt_setByte, if_pos rfl]

theorem Memory.byteAt_setByte_ne (m : Memory) {x y : Nat} (v : Byte) (h : y ≠ x) :
    Memory.byteAt (Memory.setByte m x v) y = Memory.byteAt m y := by
  rw [Memory.byteAt_setByte, if_neg h]

/-- A word written at `p` reads back as its two bytes at `p` and `p + 1`, every other byte as before. -/
theorem Memory.byteAt_setWord (m : Memory) (p : Nat) (w : Word) (y : Nat) :
    Memory.byteAt (Memory.setWord m p w) y =
      if y = p then firstByte w else if y = p + 1 then secondByte w else Memory.byteAt m y := by
  unfold Memory.setWord
  by_cases h0 : y = p
  · subst h0
    rw [Memory.byteAt_setByte_ne _ _ (by omega), Memory.byteAt_setByte_self, if_pos rfl]
  · rw [if_neg h0, Memory.byteAt_setByte, Memory.byteAt_setByte_ne _ _ h0]

/-! ### The canonical form -/

@[simp] theorem Memory.wfFrom_nil (lo : Nat) : Memory.wfFrom lo [] = true := rfl

theorem Memory.wfFrom_cons {lo x : Nat} {b : Byte} {rest : Memory} :
    Memory.wfFrom lo ((x, b) :: rest) = true ↔
      lo ≤ x ∧ x < Config.capacityBytes ∧ b ≠ Memory.unlisted ∧ Memory.wfFrom (x + 1) rest = true := by
  simp only [Memory.wfFrom, Bool.and_eq_true, decide_eq_true_eq, and_assoc]

theorem Memory.wfFrom_mono {lo lo' : Nat} {m : Memory} (h : Memory.wfFrom lo m = true) (hle : lo' ≤ lo) :
    Memory.wfFrom lo' m = true := by
  cases m with
  | nil => rfl
  | cons c rest =>
    obtain ⟨h1, h2⟩ := Memory.wfFrom_cons.mp h
    exact Memory.wfFrom_cons.mpr ⟨by omega, h2⟩

theorem Memory.wfFrom_erase {lo : Nat} {m : Memory} (h : Memory.wfFrom lo m = true) (x : Nat) :
    Memory.wfFrom lo (Memory.erase m x) = true := by
  induction m generalizing lo with
  | nil => rfl
  | cons c rest ih =>
    obtain ⟨h1, h2, h3, h4⟩ := Memory.wfFrom_cons.mp h
    by_cases hx : c.1 = x
    · simpa only [Memory.erase, if_pos hx] using Memory.wfFrom_mono (ih h4) (by omega)
    · simpa only [Memory.erase, if_neg hx] using Memory.wfFrom_cons.mpr ⟨h1, h2, h3, ih h4⟩

theorem Memory.wfFrom_insert {lo x : Nat} {m : Memory} {v : Byte} (h : Memory.wfFrom lo m = true)
    (hm : Memory.Lacks m x) (hlo : lo ≤ x) (hx : x < Config.capacityBytes) (hv : v ≠ Memory.unlisted) :
    Memory.wfFrom lo (Memory.insert m x v) = true := by
  induction m generalizing lo with
  | nil => exact Memory.wfFrom_cons.mpr ⟨hlo, hx, hv, rfl⟩
  | cons c rest ih =>
    obtain ⟨h1, h2, h3, h4⟩ := Memory.wfFrom_cons.mp h
    have hc : c.1 ≠ x := hm c (by simp)
    by_cases hlt : x < c.1
    · simpa only [Memory.insert, if_pos hlt] using
        Memory.wfFrom_cons.mpr ⟨hlo, hx, hv, Memory.wfFrom_cons.mpr ⟨by omega, h2, h3, h4⟩⟩
    · simpa only [Memory.insert, if_neg hlt] using
        Memory.wfFrom_cons.mpr ⟨h1, h2, h3, ih h4 (fun d hd => hm d (by simp [hd])) (by omega)⟩

/-- A write inside the capacity keeps the canonical form. -/
theorem Memory.wf_setByte {m : Memory} (h : Memory.wf m = true) {x : Nat} (hx : x < Config.capacityBytes) (v : Byte) :
    Memory.wf (Memory.setByte m x v) = true := by
  unfold Memory.setByte
  by_cases hv : v = Memory.unlisted
  · rw [if_pos hv]
    exact Memory.wfFrom_erase h x
  · rw [if_neg hv]
    exact Memory.wfFrom_insert (Memory.wfFrom_erase h x) (Memory.erase_lacks m x) (by omega) hx hv

theorem Memory.wf_setWord {m : Memory} (h : Memory.wf m = true) {p : Nat} (hp : p + 1 < Config.capacityBytes) (w : Word) :
    Memory.wf (Memory.setWord m p w) = true :=
  Memory.wf_setByte (Memory.wf_setByte h (by omega) _) hp _

/-- The image copy gives canonical Memory. -/
theorem Memory.wfFrom_loadFrom (i : Nat) (image : List Byte) : Memory.wfFrom i (Memory.loadFrom i image) = true := by
  induction image generalizing i with
  | nil => rfl
  | cons b rest ih =>
    unfold Memory.loadFrom
    split
    · rfl
    · split
      · exact Memory.wfFrom_mono (ih (i + 1)) (by omega)
      · exact Memory.wfFrom_cons.mpr ⟨le_refl i, by omega, ‹_›, ih (i + 1)⟩

theorem Memory.wf_ofImage (image : List Byte) : Memory.wf (Memory.ofImage image) = true :=
  Memory.wfFrom_loadFrom 0 image

/-- Below its first offset canonical Memory reads as unlisted. -/
theorem Memory.byteAt_below {lo : Nat} {m : Memory} (h : Memory.wfFrom lo m = true) {x : Nat} (hx : x < lo) :
    Memory.byteAt m x = Memory.unlisted := by
  induction m generalizing lo with
  | nil => rfl
  | cons c rest ih =>
    obtain ⟨h1, -, -, h4⟩ := Memory.wfFrom_cons.mp h
    have hne : c.1 ≠ x := by omega
    simp only [Memory.byteAt, if_neg hne]
    exact ih h4 (by omega)

/-- Above the capacity canonical Memory lists nothing. -/
theorem Memory.byteAt_above {lo : Nat} {m : Memory} (h : Memory.wfFrom lo m = true) {x : Nat}
    (hx : Config.capacityBytes ≤ x) : Memory.byteAt m x = Memory.unlisted := by
  induction m generalizing lo with
  | nil => rfl
  | cons c rest ih =>
    obtain ⟨-, h2, -, h4⟩ := Memory.wfFrom_cons.mp h
    have hne : c.1 ≠ x := by omega
    simp only [Memory.byteAt, if_neg hne]
    exact ih h4

/-- Byte `x` of a copied image, at or above the offset `i` the copy starts from. -/
theorem Memory.byteAt_loadFrom (i : Nat) (image : List Byte) {x : Nat} (hi : i ≤ x) (hx : x < Config.capacityBytes) :
    Memory.byteAt (Memory.loadFrom i image) x = image.getD (x - i) Memory.unlisted := by
  induction image generalizing i with
  | nil => simp [Memory.loadFrom, Memory.byteAt]
  | cons b rest ih =>
    have hcap : ¬ Config.capacityBytes ≤ i := by omega
    by_cases hxi : x = i
    · subst hxi
      by_cases hb : b = Memory.unlisted
      · simp only [Memory.loadFrom, if_neg hcap, Nat.sub_self, List.getD_cons_zero, hb]
        exact Memory.byteAt_below (Memory.wfFrom_loadFrom (x + 1) rest) (by omega)
      · simp only [Memory.loadFrom, if_neg hcap, if_neg hb, Memory.byteAt, if_true, Nat.sub_self, List.getD_cons_zero]
    · have hne : i ≠ x := Ne.symm hxi
      have hsub : x - i = (x - (i + 1)) + 1 := by omega
      have step := ih (i + 1) (by omega)
      by_cases hb : b = Memory.unlisted
      · simp only [Memory.loadFrom, if_neg hcap, if_pos hb, step, hsub, List.getD_cons_succ]
      · simp only [Memory.loadFrom, if_neg hcap, if_neg hb, Memory.byteAt, if_neg hne, step, hsub, List.getD_cons_succ]

end Sys2Proof.Machine
end

