-- ==== Sys2Proof/Laws/State.lean ====
section
/-! SUPPORT. One lemma per field per update of the state. -/

namespace Sys2Proof.Machine

@[simp] theorem State.advance_mem (s : State) : s.advance.mem = s.mem := rfl
@[simp] theorem State.advance_acc (s : State) : s.advance.acc = s.acc := rfl
@[simp] theorem State.advance_ip (s : State) : s.advance.ip = s.ip + 2 := rfl

@[simp] theorem State.resetFrom_mem (acc : Bit) (image : List Byte) :
    (State.resetFrom acc image).mem = Memory.ofImage image := rfl
@[simp] theorem State.resetFrom_ip (acc : Bit) (image : List Byte) : (State.resetFrom acc image).ip = 0 := rfl
@[simp] theorem State.resetFrom_acc (acc : Bit) (image : List Byte) : (State.resetFrom acc image).acc = acc := rfl

@[simp] theorem State.placeWord_acc (s : State) (w : Word) : (s.placeWord w).acc = s.acc := rfl
@[simp] theorem State.placeWord_ip (s : State) (w : Word) :
    (s.placeWord w).ip = if s.halted then 0 else s.ip := rfl
@[simp] theorem State.placeWord_mem (s : State) (w : Word) :
    (s.placeWord w).mem = Memory.setWord s.mem (s.placeWord w).ip.toNat w := rfl

@[simp] theorem advanceAfter_next (s : State) : advanceAfter (.next s) = .next s.advance := rfl
@[simp] theorem advanceAfter_fault (r : Fault) : advanceAfter (.fault r) = .fault r := rfl
@[simp] theorem advanceAfter_refused (r : Refusal) : advanceAfter (.refused r) = .refused r := rfl
@[simp] theorem takeHalt_eq (s : State) : takeHalt s = .next s := rfl

@[simp] theorem RunResult.after_records (r : TraceRecord) (x : RunResult) : (x.after r).records = r :: x.records := rfl
@[simp] theorem RunResult.after_final (r : TraceRecord) (x : RunResult) : (x.after r).final = x.final := rfl

/-- The state after reset is the reset with the empty image and the model's value of `ACC_RESET`. -/
theorem reset_eq_resetFrom : State.reset = State.resetFrom Config.accReset [] := rfl

end Sys2Proof.Machine
end

