-- ==== Sys2Proof/Laws/Ops.lean ====
section
/-! SUPPORT. What each shared operation can do, said once: the Memory primitives, the fetch, the two meanings, the
step. -/

namespace Sys2Proof.Machine

/-! ### The Memory primitives -/

theorem bitRead_eq_ok (m : Memory) {a : Nat} (h : byteIndex a < 4096) :
    bitRead m a = .ok (bitOfByte (Memory.byteAt m (byteIndex a)) (bitIndex a)) :=
  if_neg (show ¬ Config.capacityBytes ≤ byteIndex a by simpa using h)

theorem bitRead_eq_error (m : Memory) {a : Nat} (h : 4096 ≤ byteIndex a) : bitRead m a = .error .outOfRange :=
  if_pos h

theorem memRead1_eq_ok (m : Memory) {off : Nat} (h : off < 4096) : memRead1 m off = .ok (Memory.byteAt m off) :=
  if_neg (Nat.not_le.mpr h)

theorem memRead1_eq_error (m : Memory) {off : Nat} (h : 4096 ≤ off) : memRead1 m off = .error .outOfRange := if_pos h

theorem memRead2_eq_ok (m : Memory) {off : Nat} (h : off + 1 < 4096) :
    memRead2 m off = .ok (Memory.byteAt m off, Memory.byteAt m (off + 1)) :=
  if_neg (Nat.not_le.mpr h)

theorem memRead2_eq_error (m : Memory) {off : Nat} (h : 4096 ≤ off + 1) : memRead2 m off = .error .outOfRange :=
  if_pos h

/-- Memory after `BitWrite(a, v)` inside the capacity. -/
def Memory.withBit (m : Memory) (a : Nat) (v : Bit) : Memory :=
  Memory.setByte m (byteIndex a) (byteWithBit (Memory.byteAt m (byteIndex a)) (bitIndex a) v.toNat)

theorem bitWrite_eq_ok (m : Memory) {a : Nat} (v : Bit) (h : byteIndex a < 4096) :
    bitWrite m a v.toNat = .ok (Memory.withBit m a v) := by
  have hv : ¬ (v.toNat ≠ 0 ∧ v.toNat ≠ 1) := by have := v.isLt; omega
  rw [bitWrite, if_neg (show ¬ Config.capacityBytes ≤ byteIndex a by simpa using h), if_neg hv]
  rfl

/-- Byte `x` after a bit write. -/
theorem Memory.byteAt_withBit (m : Memory) (a : Nat) (v : Bit) (x : Nat) :
    Memory.byteAt (Memory.withBit m a v) x =
      if x = byteIndex a then byteWithBit (Memory.byteAt m x) (bitIndex a) v.toNat else Memory.byteAt m x := by
  rw [Memory.withBit, Memory.byteAt_setByte]
  split
  · subst_vars; rfl
  · rfl

/-- Bit `k` of byte `x` after a bit write: the value where the bit address is `8 * x + k`, else as before. -/
theorem Memory.bitOfByte_withBit (m : Memory) (a : Nat) (v : Bit) (x : Nat) {k : Nat} (hk : k < 8) :
    bitOfByte (Memory.byteAt (Memory.withBit m a v) x) k =
      if a = bitAddress x k then v else bitOfByte (Memory.byteAt m x) k := by
  rw [Memory.byteAt_withBit]
  by_cases hx : x = byteIndex a
  · rw [if_pos hx, bitOfByte_byteWithBit _ (bitIndex_lt a) hk]
    have : k = bitIndex a ↔ a = bitAddress x k := by
      subst hx; unfold bitAddress byteIndex bitIndex; omega
    simp only [this]
  · have : a ≠ bitAddress x k := by
      unfold byteIndex at hx; unfold bitAddress; omega
    rw [if_neg hx, if_neg this]

/-- Reading bit `b` after writing bit `a`. -/
theorem bitRead_withBit (m : Memory) (a : Nat) (v : Bit) {b : Nat} (hb : byteIndex b < 4096) :
    bitRead (Memory.withBit m a v) b = if b = a then .ok v else bitRead m b := by
  rw [bitRead_eq_ok _ hb, bitRead_eq_ok _ hb, Memory.bitOfByte_withBit _ _ _ _ (bitIndex_lt b),
    bitAddress_byteIndex_bitIndex]
  by_cases h : b = a
  · simp [h]
  · simp [h, Ne.symm h]

theorem Memory.wf_withBit {m : Memory} (h : Memory.wf m = true) {a : Nat} (ha : byteIndex a < 4096) (v : Bit) :
    Memory.wf (Memory.withBit m a v) = true :=
  Memory.wf_setByte h (by simpa using ha) _

/-! ### The fetch -/

theorem State.halted_eq_true {s : State} : s.halted = true ↔ 4096 ≤ s.ip.toNat + 1 := by
  rw [State.halted, decide_eq_true_eq, Config.capacityBytes_eq]

theorem State.halted_eq_false {s : State} : s.halted = false ↔ s.ip.toNat + 1 < 4096 := by
  rw [State.halted, decide_eq_false_iff_not, Config.capacityBytes_eq, Nat.not_le]

theorem fetch_of_halted {s : State} (h : s.halted = true) : fetch s = none := by
  rw [fetch, memRead2_eq_error _ (State.halted_eq_true.mp h)]

theorem fetch_of_running {s : State} (h : s.halted = false) :
    fetch s = some (Memory.byteAt s.mem s.ip.toNat, Memory.byteAt s.mem (s.ip.toNat + 1)) := by
  rw [fetch, memRead2_eq_ok _ (State.halted_eq_false.mp h)]

/-! ### The two meanings -/

theorem exec_load_eq (a : Operand) (s : State) :
    exec (.load a) s =
      .next { s with acc := bitOfByte (Memory.byteAt s.mem (byteIndex a.toNat)) (bitIndex a.toNat) } := by
  simp only [exec, execLoad, bitRead_eq_ok _ (byteIndex_operand_lt a)]
  rfl

theorem exec_store_eq (a : Operand) (s : State) :
    exec (.store a) s = .next { s with mem := Memory.withBit s.mem a.toNat s.acc } := by
  simp only [exec, execStore, bitWrite_eq_ok _ _ (byteIndex_operand_lt a)]
  rfl

/-! ### The step -/

theorem step_of_halted {s : State} (h : s.halted = true) : step s = .next s := by
  simp [step, fetch_of_halted h]

theorem stepResult_of_halted {s : State} (h : s.halted = true) : stepResult s = .halted := by
  simp [stepResult, fetch_of_halted h]

/-- The instruction at `ip`. -/
def State.instrAtIp (s : State) : Instr :=
  decode (Memory.byteAt s.mem s.ip.toNat) (Memory.byteAt s.mem (s.ip.toNat + 1))

theorem step_of_running {s : State} (h : s.halted = false) : step s = advanceAfter (exec s.instrAtIp s) := by
  simp only [step, fetch_of_running h]
  rfl

theorem stepResult_of_running {s : State} (h : s.halted = false) :
    stepResult s = .executed s.instrAtIp.opcode s.instrAtIp.operand := by
  simp only [stepResult, fetch_of_running h]
  rfl

/-- Everything a step can do: the halt, a LOAD or a STORE. -/
theorem step_inversion (s : State) :
    (s.halted = true ∧ step s = .next s ∧ stepResult s = .halted) ∨
    (∃ a, s.halted = false ∧ s.instrAtIp = .load a ∧ stepResult s = .executed .load a ∧
      step s = .next
        ⟨s.mem, s.ip + 2, bitOfByte (Memory.byteAt s.mem (byteIndex a.toNat)) (bitIndex a.toNat)⟩) ∨
    (∃ a, s.halted = false ∧ s.instrAtIp = .store a ∧ stepResult s = .executed .store a ∧
      step s = .next ⟨Memory.withBit s.mem a.toNat s.acc, s.ip + 2, s.acc⟩) := by
  cases h : s.halted with
  | true => exact .inl ⟨rfl, step_of_halted h, stepResult_of_halted h⟩
  | false =>
    right
    have hstep := step_of_running h
    have hres := stepResult_of_running h
    cases hi : s.instrAtIp with
    | load a =>
      rw [hi] at hstep hres
      exact .inl ⟨a, rfl, rfl, hres, by rw [hstep, exec_load_eq]; rfl⟩
    | store a =>
      rw [hi] at hstep hres
      exact .inr ⟨a, rfl, rfl, hres, by rw [hstep, exec_store_eq]; rfl⟩

/-- The advance of a running machine does not wrap. -/
theorem ip_add_two_toNat {s : State} (h : s.halted = false) : (s.ip + 2).toNat = s.ip.toNat + 2 := by
  rw [State.halted_eq_false] at h
  rw [BitVec.toNat_add]
  exact Nat.mod_eq_of_lt (show s.ip.toNat + 2 < 2 ^ 13 by omega)

end Sys2Proof.Machine
end

