-- ==== Sys2Proof/Laws/PerInstr.lean ====
section
/-! SUPPORT. Facts about every instruction as syntax, one lemma a constructor. -/

namespace Sys2Proof.Laws

/-- Every instruction's fields pass the checks of WellFormed. -/
def WellFormedFields.Statement (i : Instr) : Prop := i.wellFormed = true ∧ i.fields.toInstr? = some i

theorem WellFormedFields.load (a : Operand) : WellFormedFields.Statement (.load a) := by
  have ha : a.toNat < 32768 := a.isLt
  simp [WellFormedFields.Statement, Instr.wellFormed, Instr.fields, Fields.wellFormed, Fields.toInstr?, Opcode.ofBit, ha]

theorem WellFormedFields.store (a : Operand) : WellFormedFields.Statement (.store a) := by
  have ha : a.toNat < 32768 := a.isLt
  simp [WellFormedFields.Statement, Instr.wellFormed, Instr.fields, Fields.wellFormed, Fields.toInstr?, Opcode.ofBit, ha]

end Sys2Proof.Laws
end

