-- ==== Sys2Proof/Tests/Slice0.lean ====
section
/-! SUPPORT. Tests with expected results from spec/95_test_vectors.md and the rules' own examples, and for every obligation
with hypotheses a concrete state and operands that meet them. -/

namespace Sys2Proof.Tests

open Sys2Proof Sys2Proof.Machine

/-- The state an outcome goes on with. -/
def nextOf : Host.Outcome State Fault Refusal → Option State
  | .next s => some s
  | _       => none

/-- A small state: some bytes at offset 0, `ip` and `acc`. -/
def st (bytes : List Byte) (ip : Ip) (acc : Bit) : State := ⟨Memory.ofImage bytes, ip, acc⟩

/-! ### WellFormed: an ill-formed term for each check -/

theorem test_fields_opcode_two_refused : Fields.wellFormed ⟨2, 0⟩ = false := by decide
theorem test_fields_operand_32768_refused : Fields.wellFormed ⟨0, 32768⟩ = false := by decide
theorem test_fields_ill_formed_make_no_instruction :
    Fields.toInstr? ⟨2, 0⟩ = none ∧ Fields.toInstr? ⟨1, 32768⟩ = none := by decide
theorem test_fields_largest_accepted : Fields.toInstr? ⟨1, 32767⟩ = some (.store 32767) := by decide

/-! ### Decoding, words written out from the encoding `oaaaaaaa aaaaaaaa` (95_test_vectors.md 2.1) -/

theorem test_decode_load_5 : decode 0b00000000 0b00000101 = .load 5 := by decide
theorem test_decode_load_1601 : decode 0b00000110 0b01000001 = .load 1601 := by decide
theorem test_decode_load_21930 : decode 0b01010101 0b10101010 = .load 21930 := by decide
theorem test_decode_store_0 : decode 0b10000000 0b00000000 = .store 0 := by decide
theorem test_decode_store_4660 : decode 0b10010010 0b00110100 = .store 4660 := by decide
theorem test_decode_store_10837 : decode 0b10101010 0b01010101 = .store 10837 := by decide
theorem test_encode_store_32760 : encode (.store 32760) = (0xFF, 0xF8) := by decide
theorem test_decode_truncated : decodeBytes [0x80] = .error .truncated := by rfl
theorem test_opcode_map_rows_disjoint :
    opcodeMap.Pairwise fun r q => r.mask = q.mask ∧ r.pattern ≠ q.pattern := by decide

/-! ### Primitives (95_test_vectors.md 2.2) -/

theorem test_bit_of_byte_a5 :
    (List.range 8).map (bitOfByte 0xA5) = [1, 0, 1, 0, 0, 1, 0, 1] := by decide
theorem test_byte_with_bit :
    byteWithBit 0x00 7 1 = 0x80 ∧ byteWithBit 0xFF 3 0 = 0xF7 ∧ byteWithBit 0xFF 7 0 = 0x7F ∧
    byteWithBit 0xA5 1 1 = 0xA7 ∧ byteWithBit 0xA5 0 1 = 0xA5 ∧ byteWithBit 0xA5 0 0 = 0xA4 := by decide
theorem test_bit_address_of_vectors :
    (byteIndex 800, bitIndex 800) = (100, 0) ∧ (byteIndex 39, bitIndex 39) = (4, 7) ∧
    (byteIndex 32767, bitIndex 32767) = (4095, 7) := by decide
theorem test_bit_read_boundary :
    bitRead [] 32767 = .ok 0 ∧ bitRead [] 32768 = .error .outOfRange := ⟨rfl, rfl⟩
theorem test_bit_write_boundary :
    bitWrite [] 32767 1 = .ok [(4095, 0x80)] ∧ bitWrite [] 32768 1 = .error .outOfRange ∧
    bitWrite [] 32767 2 = .error .invalidBitValue := ⟨rfl, rfl, rfl⟩

/-! ### LOAD and STORE, one step each (95_test_vectors.md 2.4, 2.5) -/

theorem test_load_own_bit_3 : nextOf (step (st [0x00, 0x0B] 0 0)) = some (st [0x00, 0x0B] 2 1) := by decide
theorem test_load_next_opcode_bit :
    nextOf (step (st [0x00, 0x17, 0x80, 0x00] 0 0)) = some (st [0x00, 0x17, 0x80, 0x00] 2 1) := by decide
theorem test_store_own_opcode_bit :
    nextOf (step (st [0x80, 0x07] 0 0)) = some (st [0x00, 0x07] 2 0) ∧
    stepResult (st [0x80, 0x07] 0 0) = .executed .store 7 := by decide
theorem test_store_800_either_acc :
    (nextOf (step (st [0x83, 0x20] 0 1))).map (fun t => Memory.byteAt t.mem 100) = some 0x01 ∧
    nextOf (step (st [0x83, 0x20] 0 0)) = some (st [0x83, 0x20] 2 0) := by decide

/-! ### The halt and the odd fetch (95_test_vectors.md 2.3) -/

theorem test_halted_ips : [(0 : Ip), 4092, 4094, 4095, 4096, 8191].map (fun ip => (st [] ip 0).halted) =
    [false, false, false, true, true, true] := by decide
theorem test_halted_step : nextOf (step (st [] 8191 1)) = some (st [] 8191 1) := by decide
theorem test_odd_fetch :
    nextOf (step ⟨[(4093, 0x80), (4094, 0x07)], 4093, 1⟩) = some ⟨[(0, 0x80), (4093, 0x80), (4094, 0x07)], 4095, 1⟩ := by
  decide

/-! ### Reset and `run` (95_test_vectors.md 2.6, 2.7) -/

theorem test_reset_one_byte_image : (stepResult (State.resetFrom 0 [0xAB])) = .executed .store 11008 := by decide
theorem test_run_scenario_a :
    (run 3 (State.resetFrom 1 [0x00, 0x05, 0x80, 0x00])).records = [⟨0, .load, 5⟩, ⟨2, .store, 0⟩, ⟨4, .load, 0⟩] := by
  decide
theorem test_load_canonical_image : Memory.ofImage [0x00, 0x05, 0x80, 0x00] = [(1, 0x05), (2, 0x80)] := by decide
theorem test_with_fetch_word : State.reset.withFetchWord 16 0x8320 = st [0x83, 0x20] 0 Config.accReset := by decide

/-! ### Witnesses: for each obligation with hypotheses, values that meet them -/

theorem witness_OpcodeMapCoversEveryWordOnce :
    (0x7FFF : Word).toNat ≤ 0x7FFF ∧ 0x8000 ≤ (0x8000 : Word).toNat ∧ (⟨.store, 0x8000, 0x8000⟩ : OpcodeRow) ∈ opcodeMap := by
  decide

theorem witness_BitAddressNamesOneBit : (4095 : Nat) < 4096 ∧ (7 : Nat) < 8 ∧ (8 * 4095 + 7 = 32767) := by decide

theorem witness_ReadBitGivesTheAddressedBit : (32767 : Nat) < 32768 ∧ (32768 : Nat) ≤ 32768 := by decide

theorem witness_WriteBitChangesOneBit :
    ((32767 : Nat) < 32768 ∧ ((1 : Nat) = 0 ∨ (1 : Nat) = 1) ∧ (32766 : Nat) ≠ 32767 ∧ (4094 : Nat) ≠ 32767 / 8) ∧
    ((32768 : Nat) ≤ 32768 ∧ ((0 : Nat) = 0 ∨ (0 : Nat) = 1)) ∧ ((2 : Nat) ≠ 0 ∧ (2 : Nat) ≠ 1) := by decide

theorem witness_ByteReadsInsideTheCapacity :
    (4095 : Nat) < 4096 ∧ (4096 : Nat) ≤ 4096 ∧ 4094 + 1 < 4096 ∧ 4096 ≤ 4095 + 1 := by decide

theorem witness_CanonicalMemoriesAreEqualData :
    Memory.wf [(5, 0x01), (4095, 0x80)] = true ∧ ∀ x, x < 4096 →
      Memory.byteAt [(5, 0x01), (4095, 0x80)] x = Memory.byteAt [(5, 0x01), (4095, 0x80)] x := ⟨by decide, fun _ _ => rfl⟩

theorem witness_InstructionFieldsAsBitAddresses :
    4094 + 1 < 4096 ∧ (6 : Nat) < 7 ∧ (7 : Nat) < 8 ∧
    bitWrite [(4094, 0x03)] (8 * 4094 + 7) 1 = .ok [(4094, 0x83)] ∧
    bitWrite [(4094, 0x03)] (8 * 4094 + 8) 1 = .ok [(4094, 0x03), (4095, 0x01)] :=
  ⟨by decide, by decide, by decide, rfl, rfl⟩

theorem witness_LoadSetsAccToTheAddressedBit :
    (st [0x00, 0x07] 0 1).AtInstr (.load 7) ∧ (7 : Operand).toNat = 8 * (st [0x00, 0x07] 0 1).ip.toNat + 7 :=
  ⟨⟨by decide, by decide⟩, by decide⟩

theorem witness_StoreWritesAccToTheAddressedBit :
    (799 : Nat) ≠ (800 : Operand).toNat ∧ bitRead (st [0x01] 4 1).mem (0 : Operand).toNat = .ok (st [0x01] 4 1).acc :=
  ⟨by decide, rfl⟩

theorem witness_ExecuteFrame :
    exec (.load 0) (st [0x01] 4 0) = .next (st [0x01] 4 1) ∧ exec (.store 3) (st [0x01] 4 1) = .next (st [0x09] 4 1) ∧
    (1 : Nat) ≠ byteIndex (effectiveAddress 3) ∧ (2 : Nat) < 8 ∧ (2 : Nat) ≠ bitIndex (effectiveAddress 3) :=
  ⟨rfl, rfl, by decide, by decide, by decide⟩

theorem witness_NoInstructionFaults : nextOf (exec (.store 32767) (st [] 4096 1)) ≠ none := by decide

theorem witness_StoreOfHeldBitIsIdentity :
    Memory.wf (st [0x01] 4 1).mem = true ∧ bitRead (st [0x01] 4 1).mem (0 : Operand).toNat = .ok (st [0x01] 4 1).acc :=
  ⟨by decide, rfl⟩

theorem witness_LoadReadsInstructionBits :
    2 + 1 < 4096 ∧ (23 : Operand).toNat = 8 * 2 + 7 ∧ ((6 : Nat) < 7 ∧ (22 : Operand).toNat = 8 * 2 + 6) ∧
    ((7 : Nat) < 8 ∧ (31 : Operand).toNat = 8 * 2 + 8 + 7) := by decide

theorem witness_StepRunsTheDecodedInstruction :
    (st [0x00, 0x0B] 0 0).AtInstr (.load 11) ∧ exec (.load 11) (st [0x00, 0x0B] 0 0) = .next (st [0x00, 0x0B] 0 1) :=
  ⟨⟨by decide, by decide⟩, rfl⟩

theorem witness_HaltChangesNothing : (st [] 4095 1).ip.toNat + 1 ≥ 4096 ∧ (st [] 4094 1).ip.toNat + 1 < 4096 := by decide

theorem witness_HaltedPersists : stepResult (st [0xFF] 4096 1) = .halted := by decide

theorem witness_EveryCompletedStepAdvancesByTwo :
    (st [] 4094 0).ip.toNat + 1 < 4096 ∧ (st [] 4093 0).ip.toNat + 1 < 4096 := by decide

theorem witness_OnlyStoreWritesMemoryOnlyLoadWritesAcc :
    (step (st [0x80, 0x07] 0 0) = .next (st [0x00, 0x07] 2 0) ∧
      bitRead (st [0x00, 0x07] 2 0).mem 7 ≠ bitRead (st [0x80, 0x07] 0 0).mem 7) ∧
    (step (st [0x00, 0x0B] 0 0) = .next (st [0x00, 0x0B] 2 1) ∧
      (st [0x00, 0x0B] 2 1).acc ≠ (st [0x00, 0x0B] 0 0).acc) :=
  ⟨⟨rfl, by intro h; exact absurd (Except.ok.inj h) (by decide)⟩, rfl, by decide⟩

theorem witness_FetchSeesTheStore :
    (st [0x80, 0x17] 0 1).AtInstr (.store 23) ∧
    step (st [0x80, 0x17] 0 1) = .next (st [0x80, 0x17, 0x80] 2 1) ∧
    (st [0x80, 0x17, 0x80] 2 1).ip.toNat + 1 < 4096 ∧ (23 : Operand).toNat = 8 * 2 + 7 :=
  ⟨⟨by decide, by decide⟩, rfl, by decide, by decide⟩

theorem witness_StoreIntoItsOwnBytes :
    ((st [0x80, 0x0F] 0 0).AtInstr (.store 15) ∧ 8 * (st [0x80, 0x0F] 0 0).ip.toNat ≤ (15 : Operand).toNat ∧
      (15 : Operand).toNat ≤ 8 * (st [0x80, 0x0F] 0 0).ip.toNat + 15) ∧
    ((st [0x80, 0x07] 0 0).ip = 0 ∧ (st [0x80, 0x07] 0 0).acc = 0 ∧ Memory.byteAt (st [0x80, 0x07] 0 0).mem 0 = 0x80 ∧
      Memory.byteAt (st [0x80, 0x07] 0 0).mem 1 = 0x07) :=
  ⟨⟨⟨by decide, by decide⟩, by decide, by decide⟩, by decide⟩

/-- A run of the empty image by induction: every slot is LOAD 0 (95_test_vectors.md, Program 4). -/
theorem core_run_empty (k : Nat) : ∀ ip : Ip, ip.toNat + 2 * k ≤ 4094 →
    ∃ t : State, Host.Core.run Sys2Proof.core k ⟨[], ip, 0⟩ = .next t ∧ t.mem = [] := by
  induction k with
  | zero => exact fun ip _ => ⟨_, rfl, rfl⟩
  | succ k ih =>
    intro ip h
    have hh : (⟨[], ip, 0⟩ : State).halted = false := State.halted_eq_false.mpr (show ip.toNat + 1 < 4096 by omega)
    have hi : (⟨[], ip, 0⟩ : State).instrAtIp = .load 0 := by
      show decode Memory.unlisted Memory.unlisted = _
      decide
    have hs : Sys2Proof.core.step ⟨[], ip, 0⟩ = .next (⟨[], ip + 2, 0⟩ : State) := by
      show step _ = _
      rw [step_of_running hh, hi, exec_load_eq]
      have hb : bitOfByte Memory.unlisted (bitIndex (0 : Operand).toNat) = 0 := by decide
      show Host.Outcome.next (⟨[], ip + 2, bitOfByte Memory.unlisted (bitIndex (0 : Operand).toNat)⟩ : State) = _
      rw [hb]
      rfl
    have hip : (ip + 2).toNat = ip.toNat + 2 := ip_add_two_toNat hh
    obtain ⟨t, ht, hm⟩ := ih (ip + 2) (by omega)
    exact ⟨t, by simp only [Host.Core.run, hs]; exact ht, hm⟩

theorem witness_ZeroSlotExecutesLoadZero :
    ((st [] 4094 1).ip.toNat + 1 < 4096 ∧ Memory.byteAt (st [] 4094 1).mem 4094 = 0 ∧
      Memory.byteAt (st [] 4094 1).mem 4095 = 0) ∧
    ∃ s : State, Host.Core.run Sys2Proof.core 2047 (State.resetFrom 0 []) = .next s ∧
      Memory.byteAt s.mem 4094 = 0 ∧ Memory.byteAt s.mem 4095 = 0 := by
  refine ⟨by decide, ?_⟩
  obtain ⟨t, ht, hm⟩ := core_run_empty 2047 0 (by decide)
  exact ⟨t, ht, by rw [hm]; rfl, by rw [hm]; rfl⟩

theorem witness_ResetCopiesTheImage :
    (4095 < min (List.replicate 5000 (0x01 : Byte)).length 4096) ∧
    (min ([0xAB] : List Byte).length 4096 ≤ 1 ∧ 4095 < 4096) := by
  rw [List.length_replicate]; decide

theorem witness_StepKeepsTheInvariant :
    (st [0x80, 0x07] 0 0).Inv ∧ step (st [0x80, 0x07] 0 0) = .next (st [0x00, 0x07] 2 0) := ⟨by decide, rfl⟩

theorem witness_StepKeepsMemoryCanonical :
    Memory.wf [(4093, 0x80), (4094, 0x07)] = true ∧
    step ⟨[(4093, 0x80), (4094, 0x07)], 4093, 1⟩ = .next ⟨[(0, 0x80), (4093, 0x80), (4094, 0x07)], 4095, 1⟩ :=
  ⟨by decide, rfl⟩

theorem witness_ReachableStatesAreSafe : Reachable (st [0x00, 0x0B] 2 1) :=
  ⟨0, [0x00, 0x0B], .step .start (by rfl)⟩

theorem witness_FirstLoadHidesAccReset : (([0x00, 0x05] : List Byte).getD 0 0).toNat < 128 ∧ (0 : Nat) < 1 := by decide

theorem witness_LoadLetsOneBitThrough :
    bitRead (st [0x01, 0x10] 0 0).mem (0 : Operand).toNat = bitRead (st [0x03] 2 1).mem (0 : Operand).toNat := rfl

theorem witness_PlacedWordIsRunNext :
    (st [0xFF] 4094 1).ip.toNat + 1 < 4096 ∧
    ((st [] 4096 1).withFetchWord 16 (encodeWord (.store 7)).toNat).AtInstr (.store 7) :=
  ⟨by decide, by decide, by decide⟩

theorem witness_RunFromResetMakes2048Steps : (2048 : Nat) ≤ 2048 ∧ ¬ (2048 : Nat) ≤ 2047 := by decide

theorem witness_RunIsItsSteps :
    (run 1 (st [0x00, 0x0B] 0 0)).records[0]? = some ⟨0, .load, 11⟩ := by decide

end Sys2Proof.Tests
end

section
/-! PROOFS. The state (spec/10_state.md): canonical Memory as data, reset, and what every step and every run keeps. -/

namespace Sys2Proof.Machine

/-! ### Canonical Memory as data -/

/-- The first entry of canonical Memory is a byte inside the capacity that differs from what an unlisted byte reads as. -/
theorem Memory.byteAt_head_ne_unlisted {lo x : Nat} {b : Byte} {rest : Memory}
    (h : Memory.wfFrom lo ((x, b) :: rest) = true) :
    x < 4096 ∧ Memory.byteAt ((x, b) :: rest) x ≠ Memory.unlisted := by
  obtain ⟨-, hx, hb, -⟩ := Memory.wfFrom_cons.mp h
  exact ⟨hx, by rwa [Memory.byteAt, if_pos rfl]⟩

/-- Canonical Memory lists nothing below its first entry, so a listed byte is at or above it. -/
theorem Memory.head_le_of_byteAt_ne {lo x y : Nat} {b : Byte} {rest : Memory}
    (h : Memory.wfFrom lo ((x, b) :: rest) = true) (hy : Memory.byteAt ((x, b) :: rest) y ≠ Memory.unlisted) :
    x ≤ y := by
  obtain ⟨-, htail⟩ := Memory.wfFrom_cons.mp h
  have hfrom : Memory.wfFrom x ((x, b) :: rest) = true := Memory.wfFrom_cons.mpr ⟨le_refl x, htail⟩
  by_contra hlt
  exact hy (Memory.byteAt_below hfrom (Nat.not_le.mp hlt))

/-- Canonical Memory is determined by its bytes: the head of each list is the lowest offset that reads as listed. -/
theorem Memory.wfFrom_ext {lo lo' : Nat} {m m' : Memory} (h : Memory.wfFrom lo m = true)
    (h' : Memory.wfFrom lo' m' = true) (heq : ∀ x, x < 4096 → Memory.byteAt m x = Memory.byteAt m' x) : m = m' := by
  induction m generalizing lo lo' m' with
  | nil =>
    cases m' with
    | nil => rfl
    | cons c' rest' =>
      obtain ⟨hx, hne⟩ := Memory.byteAt_head_ne_unlisted h'
      exact absurd (heq _ hx).symm hne
  | cons c rest ih =>
    obtain ⟨x, b⟩ := c
    obtain ⟨hx, hne⟩ := Memory.byteAt_head_ne_unlisted h
    cases m' with
    | nil => exact absurd (heq x hx) hne
    | cons c' rest' =>
      obtain ⟨y, b'⟩ := c'
      obtain ⟨hy, hne'⟩ := Memory.byteAt_head_ne_unlisted h'
      have hxy : x = y := Nat.le_antisymm
        (Memory.head_le_of_byteAt_ne h (by rwa [heq y hy]))
        (Memory.head_le_of_byteAt_ne h' (by rwa [← heq x hx]))
      subst hxy
      obtain ⟨-, -, -, hrest⟩ := Memory.wfFrom_cons.mp h
      obtain ⟨-, -, -, hrest'⟩ := Memory.wfFrom_cons.mp h'
      have hbb : b = b' := by simpa [Memory.byteAt] using heq x hx
      have htail : ∀ z, z < 4096 → Memory.byteAt rest z = Memory.byteAt rest' z := by
        intro z hz
        by_cases hzx : x = z
        · rw [Memory.byteAt_below hrest (by omega), Memory.byteAt_below hrest' (by omega)]
        · simpa [Memory.byteAt, hzx] using heq z hz
      rw [hbb, ih hrest hrest' htail]

/-- Settles O9: both lists are canonical from offset 0 on, so their bytes determine them. -/
theorem canonicalMemoriesAreEqualData : Obligations.CanonicalMemoriesAreEqualData := by
  intro m m' h h' heq
  exact Memory.wfFrom_ext h h' heq

/-! ### Reset -/

/-- Byte `x` of Memory made from an image. -/
theorem Memory.byteAt_ofImage (image : List Byte) {x : Nat} (hx : x < 4096) :
    Memory.byteAt (Memory.ofImage image) x = image.getD x Memory.unlisted :=
  Memory.byteAt_loadFrom 0 image (Nat.zero_le x) hx

/-- Settles O26: a byte below 4096 is the image's where the image has one, else the unlisted byte, 0. -/
theorem resetCopiesTheImage : Obligations.ResetCopiesTheImage := by
  intro acc image
  refine ⟨fun i hi => ?_, fun i hlen hi => ?_, rfl, rfl⟩
  · obtain ⟨hlen, hcap⟩ := Nat.lt_min.mp hi
    rw [State.resetFrom_mem, Memory.byteAt_ofImage image hcap, List.getD_eq_getElem _ _ hlen,
      List.getElem?_eq_getElem hlen]
  · have hlen' : image.length ≤ i := by omega
    rw [State.resetFrom_mem, Memory.byteAt_ofImage image hi, List.getD_eq_default _ _ hlen']
    rfl

/-- The invariant after reset, for any image and either `ACC_RESET`. -/
theorem State.resetFrom_inv (acc : Bit) (image : List Byte) : (State.resetFrom acc image).Inv :=
  ⟨Memory.wf_ofImage image, by simp [State.ipInRun]⟩

/-- Settles O31: `State.reset` is the reset with the empty image. -/
theorem resetMeetsTheInvariant : Obligations.ResetMeetsTheInvariant :=
  ⟨reset_eq_resetFrom ▸ State.resetFrom_inv Config.accReset [], State.resetFrom_inv⟩

/-! ### What one step does to Memory and to `ip` -/

/-- Every step has a next state: no step faults or is refused. -/
theorem step_safe (s : State) : StepSafe s := by
  obtain ⟨-, hs, -⟩ | ⟨a, -, -, -, hs⟩ | ⟨a, -, -, -, hs⟩ := step_inversion s
  all_goals exact ⟨_, hs⟩

/-- A step leaves Memory as it is, or writes `acc` to the bit that an operand names. -/
theorem step_mem_cases {s t : State} (h : step s = .next t) :
    t.mem = s.mem ∨ ∃ a : Operand, t.mem = Memory.withBit s.mem a.toNat s.acc := by
  obtain ⟨-, hs, -⟩ | ⟨a, -, -, -, hs⟩ | ⟨a, -, -, -, hs⟩ := step_inversion s
  all_goals obtain rfl := Host.Outcome.next.inj (hs.symm.trans h)
  · exact .inl rfl
  · exact .inl rfl
  · exact .inr ⟨a, rfl⟩

/-- A step leaves `ip` as it is where the machine is halted, and else adds 2 to it, with no wrap. -/
theorem step_ip_cases {s t : State} (h : step s = .next t) :
    4096 ≤ s.ip.toNat + 1 ∧ t.ip = s.ip ∨ s.ip.toNat + 1 < 4096 ∧ t.ip.toNat = s.ip.toNat + 2 := by
  obtain ⟨hh, hs, -⟩ | ⟨a, hh, -, -, hs⟩ | ⟨a, hh, -, -, hs⟩ := step_inversion s
  all_goals obtain rfl := Host.Outcome.next.inj (hs.symm.trans h)
  · exact .inl ⟨State.halted_eq_true.mp hh, rfl⟩
  · exact .inr ⟨State.halted_eq_false.mp hh, ip_add_two_toNat hh⟩
  · exact .inr ⟨State.halted_eq_false.mp hh, ip_add_two_toNat hh⟩

/-- The step's result is `Halted` exactly where the next two bytes do not both lie in Memory. -/
theorem stepResult_eq_halted {s : State} : stepResult s = .halted ↔ 4096 ≤ s.ip.toNat + 1 := by
  rw [← State.halted_eq_true]
  cases hh : s.halted with
  | true => simp [stepResult_of_halted hh]
  | false => simp [stepResult_of_running hh]

theorem step_keeps_wf {s t : State} (hwf : Memory.wf s.mem = true) (h : step s = .next t) :
    Memory.wf t.mem = true := by
  obtain hm | ⟨a, hm⟩ := step_mem_cases h
  · rwa [hm]
  · rw [hm]
    exact Memory.wf_withBit hwf (byteIndex_toNat_lt a) s.acc

theorem step_keeps_ipInRun {s t : State} (hip : s.ipInRun) (h : step s = .next t) : t.ipInRun := by
  obtain ⟨heven, hle⟩ := hip
  obtain ⟨-, hip'⟩ | ⟨hlt, hip'⟩ := step_ip_cases h
  · exact ⟨hip' ▸ heven, hip' ▸ hle⟩
  · exact ⟨by omega, by omega⟩

/-- Settles O30: the two halves of the invariant are each kept. -/
theorem stepKeepsTheInvariant : Obligations.StepKeepsTheInvariant := by
  intro s t ⟨hwf, hip⟩ h
  exact ⟨step_keeps_wf hwf h, step_keeps_ipInRun hip h⟩

/-- Settles O32: the half of the invariant that needs nothing of `ip`. -/
theorem stepKeepsMemoryCanonical : Obligations.StepKeepsMemoryCanonical := by
  intro s t hwf h
  exact step_keeps_wf hwf h

/-! ### Runs -/

/-- What every step keeps holds in every state that steps reach. -/
theorem Reaches.keeps {P : State → Prop} (hstep : ∀ s t, P s → Machine.step s = .next t → P t) {s t : State}
    (h : Reaches s t) (hs : P s) : P t := by
  induction h with
  | start => exact hs
  | step _ hnext ih => exact hstep _ _ ih hnext

theorem Reachable.inv {t : State} (h : Reachable t) : t.Inv := by
  obtain ⟨acc, image, hreach⟩ := h
  exact hreach.keeps stepKeepsTheInvariant (State.resetFrom_inv acc image)

/-- Settles O33: by the invariant, an even `ip` of at most 4096 is halted at 4096 alone. -/
theorem reachableStatesAreSafe : Obligations.ReachableStatesAreSafe := by
  intro t ht
  obtain ⟨-, heven, hle⟩ := ht.inv
  have hhalt : stepResult t = .halted ↔ t.ip.toNat = 4096 := by
    rw [stepResult_eq_halted]
    omega
  exact ⟨heven, hle, hhalt, step_safe t⟩

/-- A run of `k + 1` steps is the first step and then a run of `k`. -/
theorem core_run_succ {s t : State} (h : step s = .next t) (k : Nat) :
    Host.Core.run Sys2Proof.core (k + 1) s = Host.Core.run Sys2Proof.core k t := by
  have hcore : Sys2Proof.core.step s = .next t := h
  simp only [Host.Core.run, hcore]

/-- The machine halts within `k` steps when `k` advances by 2 take `ip` to the halt. -/
theorem core_run_halts (k : Nat) (s : State) (hk : 4096 ≤ s.ip.toNat + 1 + 2 * k) :
    ∃ t : State, Host.Core.run Sys2Proof.core k s = .next t ∧ stepResult t = .halted := by
  induction k generalizing s with
  | zero => exact ⟨s, rfl, stepResult_eq_halted.mpr (by omega)⟩
  | succ k ih =>
    obtain ⟨t, ht⟩ := step_safe s
    have hk' : 4096 ≤ t.ip.toNat + 1 + 2 * k := by
      obtain ⟨hhalt, hip⟩ | ⟨-, hip⟩ := step_ip_cases ht
      · rw [hip]; omega
      · omega
    rw [core_run_succ ht]
    exact ih t hk'

/-- Settles O36: 2048 advances by 2 take every `ip` to the halt. -/
theorem everyRunHaltsWithin2048Steps : Obligations.EveryRunHaltsWithin2048Steps := by
  intro s
  exact core_run_halts 2048 s (by omega)

end Sys2Proof.Machine
end

section
/-! PROOFS. Memory (spec/20_memory.md): the bit addresses, the primitives, the fields of an instruction as bits, and what
a step, a STORE above all, does to them. -/

namespace Sys2Proof.Machine

/-! ### Bit addresses and reads -/

theorem byteIndex_lt_iff {a : Nat} : byteIndex a < 4096 ↔ a < 32768 := by
  unfold byteIndex; omega

/-- Bit `k` of byte `i` is read at bit address `8 * i + k`. -/
theorem bitRead_bitAddress (m : Memory) {i k : Nat} (hi : i < 4096) (hk : k < 8) :
    bitRead m (bitAddress i k) = .ok (BitVec.ofBool ((Memory.byteAt m i).getLsbD k)) := by
  have hbyte : byteIndex (bitAddress i k) < 4096 := by rwa [byteIndex_bitAddress i hk]
  rw [bitRead_eq_ok m hbyte, byteIndex_bitAddress i hk, bitIndex_bitAddress i hk, bitOfByte_eq_ofBool]

/-- Settles O5: the byte and the bit of an address are its quotient and remainder by 8. -/
theorem bitAddressNamesOneBit : Obligations.BitAddressNamesOneBit := by
  refine ⟨fun a => ⟨rfl, rfl⟩, fun i k hk => ?_, fun m i k hi hk => ?_⟩
  · exact ⟨byteIndex_bitAddress i hk, bitIndex_bitAddress i hk⟩
  · exact bitRead_bitAddress m hi hk

/-- Settles O6: the range check on the byte offset is the one on the bit address. -/
theorem readBitGivesTheAddressedBit : Obligations.ReadBitGivesTheAddressedBit := by
  intro m a
  refine ⟨fun ha => ?_, fun ha => ?_⟩
  · exact ⟨_, bitRead_eq_ok m (byteIndex_lt_iff.mpr ha), bitOfByte_toNat _ _⟩
  · exact bitRead_eq_error m (by unfold byteIndex; omega)

/-- Settles O8: each read checks the last offset it reads. -/
theorem byteReadsInsideTheCapacity : Obligations.ByteReadsInsideTheCapacity := by
  intro m off
  exact ⟨memRead1_eq_ok m, memRead1_eq_error m, memRead2_eq_ok m, memRead2_eq_error m⟩

/-! ### The bit write -/

theorem bitWrite_eq_outOfRange (m : Memory) {a : Nat} (v : Nat) (h : 32768 ≤ a) :
    bitWrite m a v = .error .outOfRange :=
  if_pos (show 4096 ≤ byteIndex a by unfold byteIndex; omega)

theorem bitWrite_eq_invalidBitValue (m : Memory) {a v : Nat} (ha : a < 32768) (hv : v ≠ 0 ∧ v ≠ 1) :
    bitWrite m a v = .error .invalidBitValue := by
  rw [bitWrite, if_neg (show ¬ Config.capacityBytes ≤ byteIndex a from Nat.not_le.mpr (byteIndex_lt_iff.mpr ha)),
    if_pos hv]

/-- Bit `k` of byte `x` after a bit write: the written bit where the bit address is `8 * x + k`, else as before. -/
theorem Memory.getLsbD_withBit (m : Memory) (a : Nat) (v : Bit) (x : Nat) {k : Nat} (hk : k < 8) :
    (Memory.byteAt (Memory.withBit m a v) x).getLsbD k =
      if a = bitAddress x k then v.getLsbD 0 else (Memory.byteAt m x).getLsbD k := by
  have hbit (b : Byte) : b.getLsbD k = (bitOfByte b k).getLsbD 0 := by simp [bitOfByte_eq_ofBool]
  rw [hbit, Memory.bitOfByte_withBit m a v x hk]
  split
  · rfl
  · exact (hbit _).symm

theorem Memory.byteAt_withBit_ne (m : Memory) {a x : Nat} (v : Bit) (h : x ≠ byteIndex a) :
    Memory.byteAt (Memory.withBit m a v) x = Memory.byteAt m x := by
  rw [Memory.byteAt_withBit, if_neg h]

theorem bitRead_withBit_self (m : Memory) {a : Nat} (v : Bit) (h : byteIndex a < 4096) :
    bitRead (Memory.withBit m a v) a = .ok v := by
  rw [bitRead_withBit m a v h, if_pos rfl]

/-- Every other bit address reads as before, out of range too, where both reads fail. -/
theorem bitRead_withBit_ne (m : Memory) {a b : Nat} (v : Bit) (h : b ≠ a) :
    bitRead (Memory.withBit m a v) b = bitRead m b := by
  by_cases hb : byteIndex b < 4096
  · rw [bitRead_withBit m a v hb, if_neg h]
  · rw [bitRead_eq_error _ (Nat.not_lt.mp hb), bitRead_eq_error _ (Nat.not_lt.mp hb)]

/-- Settles O7: inside the capacity the write of a bit is `Memory.withBit`. -/
theorem writeBitChangesOneBit : Obligations.WriteBitChangesOneBit := by
  intro m a v
  refine ⟨fun ha hv => ?_, fun ha _ => bitWrite_eq_outOfRange m v ha, bitWrite_eq_invalidBitValue m,
    fun ha _ => .inl (bitWrite_eq_outOfRange m v ha)⟩
  have hbyte : byteIndex a < 4096 := byteIndex_lt_iff.mpr ha
  obtain ⟨w, rfl⟩ : ∃ w : Bit, w.toNat = v := ⟨BitVec.ofNat 1 v, by rcases hv with rfl | rfl <;> rfl⟩
  refine ⟨Memory.withBit m a w, bitWrite_eq_ok m w hbyte, ?_, ?_, fun b => bitRead_withBit_ne m w,
    fun x => Memory.byteAt_withBit_ne m w⟩
  · rw [Memory.byteAt_withBit, if_pos (show a / 8 = byteIndex a from rfl)]
    exact byteWithBit_toNat _ (bitIndex_lt a) _
  · rw [bitRead_withBit_self m w hbyte, BitVec.ofNat_toNat, BitVec.setWidth_eq]

/-! ### The fields of an instruction as bits of its two bytes (R41) -/

theorem decodeOpcode_eq_ofBit (b0 : Byte) : decodeOpcode b0 = Opcode.ofBit (BitVec.ofBool (b0.getLsbD 7)) := by
  revert b0; decide

/-- Operand bit `j`: bit `j` of the second byte below 8, bit `j - 8` of the first byte from there on. -/
theorem decodeOperand_getLsbD (b0 b1 : Byte) {j : Nat} (hj : j < 15) :
    (decodeOperand b0 b1).getLsbD j = if j < 8 then b1.getLsbD j else b0.getLsbD (j - 8) := by
  have hmask : ∀ i < 7, (127#8).getLsbD i = true := by decide
  simp only [decodeOperand, BitVec.getLsbD_or, BitVec.getLsbD_shiftLeft, BitVec.getLsbD_setWidth,
    BitVec.getLsbD_and]
  split
  · simp [*]
  · have hhigh : b1.getLsbD j = false := BitVec.getLsbD_of_ge b1 j (by omega)
    have hlow : j - 8 < 15 := by omega
    simp [*, hmask (j - 8) (by omega)]

theorem decodeOperand_getLsbD_low (b0 b1 : Byte) {k : Nat} (hk : k < 8) :
    (decodeOperand b0 b1).getLsbD k = b1.getLsbD k := by
  rw [decodeOperand_getLsbD b0 b1 (by omega), if_pos hk]

theorem decodeOperand_getLsbD_high (b0 b1 : Byte) {k : Nat} (hk : k < 7) :
    (decodeOperand b0 b1).getLsbD (8 + k) = b0.getLsbD k := by
  rw [decodeOperand_getLsbD b0 b1 (by omega), if_neg (by omega), Nat.add_sub_cancel_left]

/-- Writing 1 to the top bit of an instruction's first byte makes it the STORE of the same operand. -/
theorem decode_withBit_opcodeBit (m : Memory) (p : Nat) :
    decode (Memory.byteAt (Memory.withBit m (bitAddress p 7) 1) p)
        (Memory.byteAt (Memory.withBit m (bitAddress p 7) 1) (p + 1)) =
      .store (decodeOperand (Memory.byteAt m p) (Memory.byteAt m (p + 1))) := by
  apply Instr.ext_parts
  · rw [decode_opcode, decodeOpcode_eq_ofBit, Memory.getLsbD_withBit _ _ _ _ (by decide), if_pos rfl]
    rfl
  · rw [decode_operand, Instr.operand_store]
    apply BitVec.eq_of_getLsbD_eq
    intro j hj
    rw [decodeOperand_getLsbD _ _ hj, decodeOperand_getLsbD _ _ hj]
    split
    · rw [Memory.getLsbD_withBit _ _ _ _ ‹j < 8›, if_neg (by unfold bitAddress; omega)]
    · rw [Memory.getLsbD_withBit _ _ _ _ (by omega), if_neg (by unfold bitAddress; omega)]

/-- Writing 1 to the lowest bit of an instruction's second byte leaves its opcode. -/
theorem decodeOpcode_withBit_operandBit (m : Memory) (p : Nat) :
    decodeOpcode (Memory.byteAt (Memory.withBit m (bitAddress (p + 1) 0) 1) p) =
      decodeOpcode (Memory.byteAt m p) := by
  rw [Memory.byteAt_withBit_ne m 1 (by rw [byteIndex_bitAddress _ (by decide)]; omega)]

/-- Writing 1 to the lowest bit of an instruction's second byte sets operand bit 0 alone. -/
theorem decodeOperand_withBit_operandBit (m : Memory) (p : Nat) :
    decodeOperand (Memory.byteAt (Memory.withBit m (bitAddress (p + 1) 0) 1) p)
        (Memory.byteAt (Memory.withBit m (bitAddress (p + 1) 0) 1) (p + 1)) =
      decodeOperand (Memory.byteAt m p) (Memory.byteAt m (p + 1)) ||| 1 := by
  apply BitVec.eq_of_getLsbD_eq
  intro j hj
  rw [BitVec.getLsbD_or, decodeOperand_getLsbD _ _ hj, decodeOperand_getLsbD _ _ hj]
  split
  · rw [Memory.getLsbD_withBit _ _ _ _ ‹j < 8›]
    by_cases h0 : j = 0
    · simp [h0]
    · simp [h0, bitAddress, BitVec.getLsbD_one]
  · rw [Memory.getLsbD_withBit _ _ _ _ (by omega), if_neg (by unfold bitAddress; omega)]
    simp [BitVec.getLsbD_one, show j ≠ 0 by omega]

/-- A write of 1 that succeeds inside Memory gives `Memory.withBit`. -/
theorem eq_withBit_of_bitWrite_one {m m' : Memory} {i k : Nat} (hi : i < 4096) (hk : k < 8)
    (h : bitWrite m (bitAddress i k) 1 = .ok m') : m' = Memory.withBit m (bitAddress i k) 1 := by
  have hok := bitWrite_eq_ok m (1 : Bit) (show byteIndex (bitAddress i k) < 4096 by rwa [byteIndex_bitAddress i hk])
  exact Except.ok.inj (h.symm.trans hok)

/-- Settles O10: bit addresses `8p` to `8p + 7` are the first byte's, `8p + 8` to `8p + 15` the second's. -/
theorem instructionFieldsAsBitAddresses : Obligations.InstructionFieldsAsBitAddresses := by
  intro m p hp i
  have hsecond (k : Nat) : 8 * p + 8 + k = bitAddress (p + 1) k := by unfold bitAddress; omega
  have hp0 : p < 4096 := by omega
  have hopcode : i.opcode = decodeOpcode (Memory.byteAt m p) := decode_opcode _ _
  have hoperand : i.operand = decodeOperand (Memory.byteAt m p) (Memory.byteAt m (p + 1)) := decode_operand _ _
  rw [hopcode, hoperand]
  refine ⟨?_, fun k hk => ?_, fun k hk => ?_, fun m' h => ?_, fun m' h => ?_⟩
  · rw [decodeOpcode_eq_ofBit, Opcode.toBit_ofBit]
    exact bitRead_bitAddress m hp0 (by decide)
  · rw [decodeOperand_getLsbD_high _ _ hk]
    exact bitRead_bitAddress m hp0 (by omega)
  · rw [decodeOperand_getLsbD_low _ _ hk, hsecond]
    exact bitRead_bitAddress m hp hk
  · rw [eq_withBit_of_bitWrite_one hp0 (by decide) h]
    exact decode_withBit_opcodeBit m p
  · rw [show 8 * p + 8 = bitAddress (p + 1) 0 from hsecond 0] at h
    rw [eq_withBit_of_bitWrite_one hp (by decide) h, decode_opcode, decode_operand]
    exact ⟨decodeOpcode_withBit_operandBit m p, decodeOperand_withBit_operandBit m p⟩

/-! ### What a step does to the bits of Memory -/

/-- Settles O22: of the halt, LOAD and STORE, STORE alone writes Memory and LOAD alone `acc`. -/
theorem onlyStoreWritesMemoryOnlyLoadWritesAcc : Obligations.OnlyStoreWritesMemoryOnlyLoadWritesAcc := by
  intro s t h
  obtain ⟨-, hs, -⟩ | ⟨a, -, -, hres, hs⟩ | ⟨a, -, -, hres, hs⟩ := step_inversion s
  all_goals obtain rfl := Host.Outcome.next.inj (hs.symm.trans h)
  · exact ⟨fun b hb => absurd rfl hb, fun hacc => absurd rfl hacc⟩
  · exact ⟨fun b hb => absurd rfl hb, fun _ => ⟨a, hres⟩⟩
  · refine ⟨fun b hb => ?_, fun hacc => absurd rfl hacc⟩
    have hba : b = a.toNat := by
      by_contra hne
      exact hb (bitRead_withBit_ne s.mem s.acc hne)
    subst hba
    rw [BitVec.ofNat_toNat, BitVec.setWidth_eq]
    exact ⟨a.isLt, hres⟩

/-- A machine at an instruction is running. -/
theorem State.AtInstr.not_halted {s : State} {i : Instr} (h : s.AtInstr i) : s.halted = false := by
  obtain ⟨hip, -⟩ := h
  exact State.halted_eq_false.mpr hip

theorem State.AtInstr.instrAtIp_eq {s : State} {i : Instr} (h : s.AtInstr i) : s.instrAtIp = i := by
  obtain ⟨-, hi⟩ := h
  exact hi

/-- The step over a STORE: its result and its one next state. -/
theorem step_of_atInstr_store {s : State} {a : Operand} (h : s.AtInstr (.store a)) :
    stepResult s = .executed .store a ∧
      step s = .next ⟨Memory.withBit s.mem a.toNat s.acc, s.ip + 2, s.acc⟩ := by
  rw [stepResult_of_running h.not_halted, step_of_running h.not_halted, h.instrAtIp_eq, exec_store_eq]
  exact ⟨rfl, rfl⟩

/-- Settles O23: a fetch reads the two bytes of the Memory that the STORE wrote. -/
theorem fetchSeesTheStore : Obligations.FetchSeesTheStore := by
  intro s t u a hat hstep hmem hip
  obtain ⟨-, hs⟩ := step_of_atInstr_store hat
  obtain rfl := Host.Outcome.next.inj (hs.symm.trans hstep)
  refine ⟨_, _, fetch_of_running (State.halted_eq_false.mpr hip), fun k hk => ?_⟩
  have hsecond : 8 * u.ip.toNat + 8 + k = bitAddress (u.ip.toNat + 1) k := by unfold bitAddress; omega
  rw [hmem, hsecond]
  exact ⟨Memory.getLsbD_withBit _ _ _ _ hk, Memory.getLsbD_withBit _ _ _ _ hk⟩

/-- Settles O24: the step decodes the bytes as they were at the fetch, wherever the STORE then writes. -/
theorem storeIntoItsOwnBytes : Obligations.StoreIntoItsOwnBytes := by
  refine ⟨fun s a hat _ _ => ?_, fun s hip hacc h0 h1 => ?_⟩
  · obtain ⟨hres, hs⟩ := step_of_atInstr_store hat
    exact ⟨hres, _, hs, ip_add_two_toNat hat.not_halted, rfl, bitRead_withBit_self _ _ (byteIndex_toNat_lt a),
      fun b => bitRead_withBit_ne _ _⟩
  · have hat : s.AtInstr (.store 7) := by
      refine ⟨by rw [hip]; decide, ?_⟩
      rw [hip]
      exact (congrArg₂ decode h0 h1).trans (by decide)
    obtain ⟨hres, hs⟩ := step_of_atInstr_store hat
    refine ⟨hres, _, hs, by rw [hip]; rfl, ?_⟩
    rw [Memory.byteAt_withBit, if_pos (by decide), h0, hacc]
    decide

end Sys2Proof.Machine
end

section
/-! PROOFS. Encoding (spec/30_encoding.md): the operand field, the encoder and the decoder as inverses, and the opcode map. -/

namespace Sys2Proof.Machine

/-! ### The operand field (R57) -/

/-- A field of `k` bits below another: the spec's `(hi << k) | lo` is the sum. -/
theorem shiftLeft_or_eq_add (hi : Nat) {lo k : Nat} (h : lo < 2 ^ k) : hi <<< k ||| lo = hi * 2 ^ k + lo := by
  rw [← Nat.shiftLeft_add_eq_or_of_lt h, Nat.shiftLeft_eq]

/-- Settles O1: as numbers, the spec's formula and `w[14:0]` are both `decodeOperand_toNat`. -/
theorem operandIsTheLowFifteenBits : Obligations.OperandIsTheLowFifteenBits := by
  intro b0 b1
  have hmask : b0.toNat &&& 0x7F = b0.toNat % 128 := Nat.and_two_pow_sub_one_eq_mod _ 7
  have hb1 : b1.toNat < 2 ^ 8 := b1.isLt
  rw [decode_operand]
  refine ⟨?_, ?_, Nat.le_of_lt_succ (decodeOperand b0 b1).isLt, effectiveAddress_eq _⟩
  · rw [hmask, shiftLeft_or_eq_add _ hb1]
    exact decodeOperand_toNat b0 b1
  · apply BitVec.eq_of_toNat_eq
    rw [decodeOperand_toNat, BitVec.extractLsb'_toNat, wordOf_toNat, Nat.shiftRight_zero]
    omega

/-! ### Encoder and decoder are inverses (R62) -/

/-- The opcode bit is the first byte's high bit, as a number. -/
theorem decodeOpcode_toBit_toNat (b0 : Byte) : (decodeOpcode b0).toBit.toNat = b0.toNat / 128 := by
  have := b0.isLt
  rw [decodeOpcode_eq]
  split
  · show 0 = _
    omega
  · show 1 = _
    omega

/-- An opcode is determined by the number of its bit. -/
theorem Opcode.eq_of_toBit_toNat_eq {o o' : Opcode} (h : o.toBit.toNat = o'.toBit.toNat) : o = o' := by
  rw [← Opcode.ofBit_toBit o, BitVec.eq_of_toNat_eq h, Opcode.ofBit_toBit]

theorem decode_encode (i : Instr) : decode (encode i).1 (encode i).2 = i := by
  have ha := i.operand.isLt
  apply Instr.ext_parts
  · apply Opcode.eq_of_toBit_toNat_eq
    rw [decode_opcode, decodeOpcode_toBit_toNat, encode_fst_toNat]
    omega
  · apply BitVec.eq_of_toNat_eq
    rw [decode_operand, decodeOperand_toNat, encode_fst_toNat, encode_snd_toNat]
    omega

theorem encode_decode (b0 b1 : Byte) : encode (decode b0 b1) = (b0, b1) := by
  have hb1 := b1.isLt
  refine Prod.ext (BitVec.eq_of_toNat_eq (y := b0) ?_) (BitVec.eq_of_toNat_eq (y := b1) ?_)
  · rw [encode_fst_toNat, decode_opcode, decode_operand, decodeOpcode_toBit_toNat, decodeOperand_toNat]
    omega
  · rw [encode_snd_toNat, decode_operand, decodeOperand_toNat]
    omega

/-- The first byte by the spec's formula `(o << 7) | (a >> 8)`. -/
theorem encode_fst_toNat_eq_or (i : Instr) :
    (encode i).1.toNat = (i.opcode.toBit.toNat <<< 7) ||| (i.operand.toNat >>> 8) := by
  have ha := i.operand.isLt
  have hhigh : i.operand.toNat / 2 ^ 8 < 2 ^ 7 := by omega
  rw [Nat.shiftRight_eq_div_pow, shiftLeft_or_eq_add _ hhigh]
  exact encode_fst_toNat i

/-- The second byte by the spec's formula `a & 0xFF`. -/
theorem encode_snd_toNat_eq_and (i : Instr) : (encode i).2.toNat = i.operand.toNat &&& 0xFF := by
  rw [encode_snd_toNat]
  exact (Nat.and_two_pow_sub_one_eq_mod _ 8).symm

/-- The word by the spec's formula `(o << 15) | a`. -/
theorem encodeWord_toNat_eq_or (i : Instr) :
    (encodeWord i).toNat = (i.opcode.toBit.toNat <<< 15) ||| i.operand.toNat := by
  rw [shiftLeft_or_eq_add _ i.operand.isLt]
  exact encodeWord_toNat i

@[simp] theorem firstByte_encodeWord (i : Instr) : firstByte (encodeWord i) = (encode i).1 := by
  rw [← wordOf_encode, firstByte_wordOf]

@[simp] theorem secondByte_encodeWord (i : Instr) : secondByte (encodeWord i) = (encode i).2 := by
  rw [← wordOf_encode, secondByte_wordOf]

/-- Settles O2: `decode` and `encode` are inverse as arithmetic on the two fields, and a stored word is its two bytes. -/
theorem encodeDecodeBijection : Obligations.EncodeDecodeBijection := by
  refine ⟨decode_encode, encode_decode, fun i => ?_, fun i m p => ⟨?_, ?_⟩, by decide, by decide⟩
  · exact ⟨encode_fst_toNat_eq_or i, encode_snd_toNat_eq_and i, encodeWord_toNat_eq_or i, wordOf_encode i⟩
  · rw [Memory.byteAt_setWord, if_pos rfl, firstByte_encodeWord]
  · rw [Memory.byteAt_setWord, if_neg (Nat.succ_ne_self p), if_pos rfl, secondByte_encodeWord]

/-! ### The opcode map (R56, R59) -/

/-- The opcode bit of a word is its bit 15, as a number. -/
theorem decodeWord_opcode_toBit_toNat (w : Word) : (decodeWord w).opcode.toBit.toNat = w.toNat / 32768 := by
  rw [decodeWord, decode_opcode, decodeOpcode_toBit_toNat, firstByte_toNat]
  omega

theorem decodeWord_operand_toNat (w : Word) : (decodeWord w).operand.toNat = w.toNat % 32768 := by
  rw [decodeWord, decode_operand, decodeOperand_toNat, firstByte_toNat, secondByte_toNat]
  omega

/-- The boundary of the two rows: LOAD below 0x8000, STORE from there on. -/
theorem decodeWord_opcode_eq (w : Word) : (decodeWord w).opcode = if w.toNat < 0x8000 then .load else .store := by
  have := w.isLt
  apply Opcode.eq_of_toBit_toNat_eq
  rw [decodeWord_opcode_toBit_toNat]
  split
  · show _ = 0
    omega
  · show _ = 1
    omega

theorem decodeWord_eq_load {w : Word} (h : w.toNat < 0x8000) : decodeWord w = .load (BitVec.ofNat 15 w.toNat) := by
  apply Instr.ext_parts
  · rw [decodeWord_opcode_eq, if_pos h, Instr.opcode_load]
  · apply BitVec.eq_of_toNat_eq
    rw [decodeWord_operand_toNat, Instr.operand_load, BitVec.toNat_ofNat]

theorem decodeWord_eq_store {w : Word} (h : 0x8000 ≤ w.toNat) :
    decodeWord w = .store (BitVec.ofNat 15 (w.toNat - 0x8000)) := by
  apply Instr.ext_parts
  · rw [decodeWord_opcode_eq, if_neg (Nat.not_lt.mpr h), Instr.opcode_store]
  · apply BitVec.eq_of_toNat_eq
    rw [decodeWord_operand_toNat, Instr.operand_store, BitVec.toNat_ofNat]
    omega

/-- The map's mask keeps bit 15 alone, so it tells the two halves of the words apart. -/
theorem and_opcodeMask (w : Word) : w &&& 0x8000 = if w.toNat < 0x8000 then 0x0000 else 0x8000 := by
  have hbit : w.getLsbD 15 = decide (0x8000 ≤ w.toNat) := BitVec.msb_eq_decide w
  rw [show (0x8000 : Word) = BitVec.twoPow 16 15 from rfl, BitVec.and_twoPow, hbit]
  by_cases h : w.toNat < 0x8000
  · simp [h]
  · simp [h, Nat.not_lt.mp h]

/-- The pattern of the LOAD row is met by the words of LOAD alone. -/
theorem and_opcodeMask_eq_load_iff (w : Word) : w &&& 0x8000 = 0x0000 ↔ (decodeWord w).opcode = .load := by
  rw [and_opcodeMask, decodeWord_opcode_eq]
  split <;> decide

/-- The pattern of the STORE row is met by the words of STORE alone. -/
theorem and_opcodeMask_eq_store_iff (w : Word) : w &&& 0x8000 = 0x8000 ↔ (decodeWord w).opcode = .store := by
  rw [and_opcodeMask, decodeWord_opcode_eq]
  split <;> decide

/-- Each row of the map covers exactly the words of its opcode. -/
theorem covers_iff_decodeWord_opcode {r : OpcodeRow} (hr : r ∈ opcodeMap) (w : Word) :
    r.covers w = true ↔ (decodeWord w).opcode = r.opcode := by
  have hrow : r = ⟨.load, 0x8000, 0x0000⟩ ∨ r = ⟨.store, 0x8000, 0x8000⟩ := by simpa [opcodeMap] using hr
  rw [OpcodeRow.covers, decide_eq_true_iff]
  obtain rfl | rfl := hrow
  · exact and_opcodeMask_eq_load_iff w
  · exact and_opcodeMask_eq_store_iff w

/-- Settles O4: opcode and operand of a word are its quotient and remainder by 0x8000. -/
theorem opcodeMapCoversEveryWordOnce : Obligations.OpcodeMapCoversEveryWordOnce := by
  intro w
  have hw := w.isLt
  refine ⟨?_, ?_, fun h => ⟨decodeWord_eq_load (by omega), ?_⟩, fun h => ⟨decodeWord_eq_store h, ?_⟩,
    and_opcodeMask_eq_load_iff w, and_opcodeMask_eq_store_iff w, fun r hr => covers_iff_decodeWord_opcode hr w⟩
  · apply BitVec.eq_of_toNat_eq
    rw [decodeWord_opcode_toBit_toNat, BitVec.extractLsb'_toNat, Nat.shiftRight_eq_div_pow]
    omega
  · rw [decodeWord_opcode_toBit_toNat, firstByte_toNat, Nat.shiftRight_eq_div_pow]
    omega
  · rw [decodeWord_operand_toNat]
    omega
  · rw [decodeWord_operand_toNat]
    omega

end Sys2Proof.Machine
end

section
/-! PROOFS. The step cycle (spec/40_step_cycle.md): one step against R65's pseudocode, the advance, the halt, and `run`. -/

namespace Sys2Proof.Machine

/-! ### The pseudocode of R65 on the machine's own bytes -/

/-- R65's `b0 >> 7` is the opcode bit of the instruction at `ip`. -/
theorem State.memNat_shiftRight_eq_opcode (s : State) :
    s.memNat s.ip.toNat >>> 7 = s.instrAtIp.opcode.toBit.toNat := by
  rw [State.instrAtIp, decode_opcode, decodeOpcode_toBit_toNat, Nat.shiftRight_eq_div_pow]
  rfl

/-- R65's `((b0 & 0x7F) << 8) | b1` is the operand of the instruction at `ip`. -/
theorem State.memNat_or_eq_operand (s : State) :
    ((s.memNat s.ip.toNat &&& 0x7F) <<< 8) ||| s.memNat (s.ip.toNat + 1) = s.instrAtIp.operand.toNat := by
  obtain ⟨hformula, -⟩ :=
    operandIsTheLowFifteenBits (Memory.byteAt s.mem s.ip.toNat) (Memory.byteAt s.mem (s.ip.toNat + 1))
  exact hformula.symm

theorem specStep_of_halted {mem : Nat → Nat} {ip acc : Nat} (h : 4096 ≤ ip + 1) :
    specStep mem ip acc = (mem, ip, acc, none) :=
  if_pos h

/-- The pseudocode takes its LOAD branch at a LOAD. -/
theorem specStep_of_load {s : State} {a : Operand} (hh : s.halted = false) (hi : s.instrAtIp = .load a) (acc : Nat) :
    specStep s.memNat s.ip.toNat acc =
      (s.memNat, s.ip.toNat + 2, (s.memNat (a.toNat / 8) >>> (a.toNat % 8)) &&& 1, some (0, a.toNat)) := by
  have hrun : ¬ s.ip.toNat + 1 ≥ 4096 := Nat.not_le.mpr (State.halted_eq_false.mp hh)
  have hop : s.memNat s.ip.toNat >>> 7 = 0 := by rw [State.memNat_shiftRight_eq_opcode, hi]; rfl
  simp only [specStep, if_neg hrun, State.memNat_or_eq_operand, hi, hop, if_true, Instr.operand_load]

/-- The pseudocode takes its STORE branch at a STORE. -/
theorem specStep_of_store {s : State} {a : Operand} (hh : s.halted = false) (hi : s.instrAtIp = .store a) (acc : Nat) :
    specStep s.memNat s.ip.toNat acc =
      (specBitWrite s.memNat a.toNat acc, s.ip.toNat + 2, acc, some (1, a.toNat)) := by
  have hrun : ¬ s.ip.toNat + 1 ≥ 4096 := Nat.not_le.mpr (State.halted_eq_false.mp hh)
  have hop : s.memNat s.ip.toNat >>> 7 = 1 := by rw [State.memNat_shiftRight_eq_opcode, hi]; rfl
  simp only [specStep, if_neg hrun, State.memNat_or_eq_operand, hi, hop, if_neg Nat.one_ne_zero, Instr.operand_store]

/-- A bit write read as numbers is the pseudocode's. -/
theorem specBitWrite_memNat (s : State) (a : Nat) (v : Bit) :
    specBitWrite s.memNat a v.toNat = fun x => (Memory.byteAt (Memory.withBit s.mem a v) x).toNat := by
  funext x
  rw [Memory.byteAt_withBit, specBitWrite]
  by_cases hx : x = byteIndex a
  · rw [if_pos hx, byteWithBit_toNat _ (bitIndex_lt a)]
    exact if_pos hx
  · rw [if_neg hx]
    exact if_neg hx

/-- Settles O18: the halt, LOAD and STORE each answer what their branch of the pseudocode computes. -/
theorem stepRefinesThePseudocode : Obligations.StepRefinesThePseudocode := by
  intro s
  obtain ⟨hh, hs, hres⟩ | ⟨a, hh, hi, hres, hs⟩ | ⟨a, hh, hi, hres, hs⟩ := step_inversion s
  all_goals refine ⟨_, hs, ?_⟩
  · rw [specStep_of_halted (State.halted_eq_true.mp hh), hres]
    rfl
  · rw [specStep_of_load hh hi, hres, ip_add_two_toNat hh, bitOfByte_toNat]
    rfl
  · rw [specStep_of_store hh hi, hres, ip_add_two_toNat hh, specBitWrite_memNat]
    rfl

/-! ### One step: the execute phase, the advance, the halt -/

/-- The execute phase leaves `ip` (R69). -/
theorem exec_keeps_ip {i : Instr} {s t : State} (h : exec i s = .next t) : t.ip = s.ip := by
  cases i with
  | load a =>
    rw [exec_load_eq] at h
    rw [← Host.Outcome.next.inj h]
  | store a =>
    rw [exec_store_eq] at h
    rw [← Host.Outcome.next.inj h]

theorem step_of_atInstr {s : State} {i : Instr} (h : s.AtInstr i) : step s = advanceAfter (exec i s) := by
  rw [step_of_running h.not_halted, h.instrAtIp_eq]

/-- The step at a LOAD: its result and its one next state. -/
theorem step_of_atInstr_load {s : State} {a : Operand} (h : s.AtInstr (.load a)) :
    stepResult s = .executed .load a ∧
      step s = .next
        ⟨s.mem, s.ip + 2, bitOfByte (Memory.byteAt s.mem (byteIndex a.toNat)) (bitIndex a.toNat)⟩ := by
  rw [stepResult_of_running h.not_halted, step_of_atInstr h, h.instrAtIp_eq, exec_load_eq]
  exact ⟨rfl, rfl⟩

/-- Settles O17: fetch and decode give `i`, and the execute phase of `i` leaves the `ip` that the advance adds to. -/
theorem stepRunsTheDecodedInstruction : Obligations.StepRunsTheDecodedInstruction := by
  intro s i h
  refine ⟨step_of_atInstr h, ?_, fun t ht => ?_⟩
  · rw [stepResult_of_running h.not_halted, h.instrAtIp_eq]
  · rw [step_of_atInstr h, ht, ← exec_keeps_ip ht]
    rfl

/-- Settles O19: the machine is halted exactly where `ip + 1` is 4096 or more. -/
theorem haltChangesNothing : Obligations.HaltChangesNothing := by
  intro s
  refine ⟨fun h => ⟨stepResult_eq_halted.mpr h, step_of_halted (State.halted_eq_true.mpr h)⟩, fun h hres => ?_⟩
  exact absurd (stepResult_eq_halted.mp hres) (Nat.not_le.mpr h)

theorem step_ip_of_running {s t : State} (hrun : s.ip.toNat + 1 < 4096) (ht : step s = .next t) :
    t.ip.toNat = s.ip.toNat + 2 := by
  obtain ⟨hhalt, -⟩ | ⟨-, hip⟩ := step_ip_cases ht
  · exact absurd hhalt (Nat.not_le.mpr hrun)
  · exact hip

/-- Settles O21: every step has a next state, and the advance of a running machine does not wrap. -/
theorem everyCompletedStepAdvancesByTwo : Obligations.EveryCompletedStepAdvancesByTwo := by
  intro s hrun
  obtain ⟨t, ht⟩ := step_safe s
  have hip := step_ip_of_running hrun ht
  exact ⟨t, ht, hip, by omega⟩

/-- A step that is executed is one of a running machine. -/
theorem running_of_executed {s : State} {o : Opcode} {a : Operand} (h : stepResult s = .executed o a) :
    s.ip.toNat + 1 < 4096 :=
  Nat.not_le.mp fun hhalt => nomatch h.symm.trans (stepResult_eq_halted.mpr hhalt)

/-! ### A word placed where the next step fetches (log entry 8) -/

theorem State.withFetchWord_encodeWord (s : State) (i : Instr) :
    s.withFetchWord 16 (encodeWord i).toNat = s.placeWord (encodeWord i) := by
  rw [State.withFetchWord, tableWord, Nat.mod_eq_of_lt (encodeWord i).isLt, BitVec.ofNat_toNat, BitVec.setWidth_eq]

theorem State.placeWord_ip_of_running {s : State} (h : s.halted = false) (w : Word) : (s.placeWord w).ip = s.ip := by
  rw [State.placeWord_ip, h]
  rfl

/-- The state with a placed word is running: its `ip` is that of a running state, or 0. -/
theorem State.placeWord_running (s : State) (w : Word) : (s.placeWord w).ip.toNat + 1 < 4096 := by
  cases h : s.halted with
  | true =>
    rw [State.placeWord_ip, h, if_pos rfl]
    decide
  | false =>
    rw [State.placeWord_ip_of_running h]
    exact State.halted_eq_false.mp h

/-- The two bytes of the placed word stand at `ip`, the first lower. -/
theorem State.placeWord_atInstr (s : State) (i : Instr) : (s.placeWord (encodeWord i)).AtInstr i := by
  refine ⟨State.placeWord_running s _, ?_⟩
  rw [State.placeWord_mem, Memory.byteAt_setWord, if_pos rfl, Memory.byteAt_setWord, if_neg (Nat.succ_ne_self _),
    if_pos rfl, firstByte_encodeWord, secondByte_encodeWord, decode_encode]

/-- Settles O39: the placed word's two bytes stand at `ip` of the new state, which is running. -/
theorem placedWordIsRunNext : Obligations.PlacedWordIsRunNext := by
  intro s i
  rw [State.withFetchWord_encodeWord]
  have hat := State.placeWord_atInstr s i
  refine ⟨hat, rfl, fun hrun => ?_, fun x h0 h1 => ?_, step_of_atInstr hat⟩
  · exact State.placeWord_ip_of_running (State.halted_eq_false.mpr hrun) _
  · rw [State.placeWord_mem, Memory.byteAt_setWord, if_neg h0, if_neg h1]

/-! ### Runs as iterated steps -/

theorem core_run_of_halted {s : State} (h : stepResult s = .halted) (n : Nat) :
    Host.Core.run Sys2Proof.core n s = .next s := by
  induction n with
  | zero => rfl
  | succ n ih => rw [core_run_succ (step_of_halted (State.halted_eq_true.mpr (stepResult_eq_halted.mp h))), ih]

/-- A run of `k + 1` steps is a run of `k` and then one more step. -/
theorem core_run_succ_last {s t : State} {k : Nat} (h : Host.Core.run Sys2Proof.core k s = .next t) :
    Host.Core.run Sys2Proof.core (k + 1) s = step t := by
  induction k generalizing s with
  | zero =>
    obtain rfl := Host.Outcome.next.inj h
    obtain ⟨u, hu⟩ := step_safe s
    rw [core_run_succ hu, hu]
    rfl
  | succ k ih =>
    obtain ⟨u, hu⟩ := step_safe s
    rw [core_run_succ hu] at h ⊢
    exact ih h

/-- `n` steps from `d` advances before offset 4096 are `min n d` advances. -/
theorem core_run_ip {s : State} {d : Nat} (hd : s.ip.toNat + 2 * d = 4096) (n : Nat) :
    ∃ t : State, Host.Core.run Sys2Proof.core n s = .next t ∧ t.ip.toNat = s.ip.toNat + 2 * min n d := by
  induction n generalizing s d with
  | zero => exact ⟨s, rfl, by omega⟩
  | succ n ih =>
    obtain ⟨t, ht⟩ := step_safe s
    rw [core_run_succ ht]
    obtain ⟨hhalt, hip⟩ | ⟨hrun, hip⟩ := step_ip_cases ht
    · obtain ⟨u, hu, huip⟩ := ih (s := t) (d := d) (by rw [hip, hd])
      exact ⟨u, hu, by rw [huip, hip]; omega⟩
    · obtain ⟨u, hu, huip⟩ := ih (s := t) (d := d - 1) (by omega)
      exact ⟨u, hu, by omega⟩

/-! ### `run` and its records (R74) -/

theorem run_of_halted {s : State} (h : stepResult s = .halted) (n : Nat) : run n s = ⟨[], .next s⟩ := by
  cases n with
  | zero => rfl
  | succ n => simp only [run, h]

theorem run_succ_of_executed {s t : State} {o : Opcode} {a : Operand} (h : stepResult s = .executed o a)
    (ht : step s = .next t) (n : Nat) : run (n + 1) s = (run n t).after ⟨s.ip, o, a⟩ := by
  simp only [run, h, ht]

/-- What `run` does at each step: it stops at a halt, and else makes the step and puts its record before the others. -/
theorem run_succ_cases (s : State) :
    stepResult s = .halted ∨
    ∃ o a t, stepResult s = .executed o a ∧ step s = .next t ∧
      ∀ n, run (n + 1) s = (run n t).after ⟨s.ip, o, a⟩ := by
  obtain ⟨t, ht⟩ := step_safe s
  cases hres : stepResult s with
  | halted => exact .inl rfl
  | executed o a => exact .inr ⟨o, a, t, rfl, ht, run_succ_of_executed hres ht⟩

theorem run_final (n : Nat) (s : State) : (run n s).final = Host.Core.run Sys2Proof.core n s := by
  induction n generalizing s with
  | zero => rfl
  | succ n ih =>
    obtain hhalt | ⟨o, a, t, -, ht, hrun⟩ := run_succ_cases s
    · rw [run_of_halted hhalt]
      exact (core_run_of_halted hhalt (n + 1)).symm
    · rw [hrun, RunResult.after_final, core_run_succ ht, ih]

theorem run_records_length_le (n : Nat) (s : State) : (run n s).records.length ≤ n := by
  induction n generalizing s with
  | zero => exact le_refl 0
  | succ n ih =>
    obtain hhalt | ⟨o, a, t, -, -, hrun⟩ := run_succ_cases s
    · rw [run_of_halted hhalt]
      exact Nat.zero_le _
    · rw [hrun, RunResult.after_records, List.length_cons]
      exact Nat.succ_le_succ (ih t)

theorem run_records_getElem? (n k : Nat) (s : State) (r : TraceRecord) :
    (run n s).records[k]? = some r ↔
      k < n ∧ ∃ t : State, Host.Core.run Sys2Proof.core k s = .next t ∧
        stepResult t = .executed r.opcode r.operand ∧ r.ipBeforeStep = t.ip := by
  induction n generalizing k s with
  | zero => simp [run]
  | succ n ih =>
    obtain hhalt | ⟨o, a, t, hres, ht, hrun⟩ := run_succ_cases s
    · rw [run_of_halted hhalt, core_run_of_halted hhalt, List.getElem?_nil]
      refine ⟨(nomatch ·), fun ⟨_, t, hst, hres, _⟩ => ?_⟩
      obtain rfl := Host.Outcome.next.inj hst
      exact nomatch hhalt.symm.trans hres
    · rw [hrun, RunResult.after_records]
      cases k with
      | zero =>
        rw [List.getElem?_cons_zero, Option.some.injEq]
        refine ⟨?_, fun ⟨_, u, hsu, hres', hip⟩ => ?_⟩
        · rintro rfl
          exact ⟨Nat.succ_pos n, s, rfl, hres, rfl⟩
        · obtain rfl := Host.Outcome.next.inj hsu
          obtain ⟨rfl, rfl⟩ := StepResult.executed.inj (hres.symm.trans hres')
          rw [← hip]
      | succ k =>
        rw [List.getElem?_cons_succ, ih, core_run_succ ht, Nat.succ_lt_succ_iff]

/-- Settles O35: by induction on the number of steps, over the halt and the completed step. -/
theorem runIsItsSteps : Obligations.RunIsItsSteps := by
  intro n s
  exact ⟨run_final n s, run_records_length_le n s, fun k r => run_records_getElem? n k s r⟩

/-- The offsets of the completed steps of a run that starts `d` advances before offset 4096. -/
theorem run_records_ip {s : State} {d : Nat} (hd : s.ip.toNat + 2 * d = 4096) (n : Nat) :
    (run n s).records.map (fun r => r.ipBeforeStep.toNat) =
      (List.range (min n d)).map (fun k => s.ip.toNat + 2 * k) := by
  induction n generalizing s d with
  | zero => simp [run]
  | succ n ih =>
    obtain hhalt | ⟨o, a, t, hres, ht, hrun⟩ := run_succ_cases s
    · have hd0 : d = 0 := by have := stepResult_eq_halted.mp hhalt; omega
      rw [run_of_halted hhalt, hd0, Nat.min_zero]
      rfl
    · have hrunning := running_of_executed hres
      have hip := step_ip_of_running hrunning ht
      have hshift (k : Nat) : t.ip.toNat + 2 * k = s.ip.toNat + 2 * (k + 1) := by omega
      cases d with
      | zero => omega
      | succ d =>
        rw [hrun, RunResult.after_records, List.map_cons, ih (d := d) (by omega), Nat.add_min_add_right,
          List.range_succ_eq_map, List.map_cons, List.map_map]
        simp only [hshift]
        rfl

/-- The reset state stands 2048 advances before offset 4096 (R28). -/
theorem State.resetFrom_ip_add (acc : Bit) (image : List Byte) :
    (State.resetFrom acc image).ip.toNat + 2 * 2048 = 4096 :=
  rfl

/-- Settles O34: with 2048 advances to go, a run of `n` steps makes `min n 2048` of them. -/
theorem runFromResetMakes2048Steps : Obligations.RunFromResetMakes2048Steps := by
  intro acc image n
  obtain ⟨t, ht, hip⟩ := core_run_ip (State.resetFrom_ip_add acc image) n
  replace hip : t.ip.toNat = 2 * min n 2048 := hip.trans (Nat.zero_add _)
  have hhalt : stepResult t = .halted ↔ 2048 ≤ n := by
    rw [stepResult_eq_halted]
    omega
  refine ⟨?_, t, (run_final _ _).trans ht, hip, hhalt, fun hn k => core_run_of_halted (hhalt.mpr hn) k⟩
  rw [run_records_ip (State.resetFrom_ip_add acc image) n]
  simp

/-! ### Zero slots (R79) -/

theorem step_of_zeroSlot {s : State} (hrun : s.ip.toNat + 1 < 4096) (h0 : Memory.byteAt s.mem s.ip.toNat = 0)
    (h1 : Memory.byteAt s.mem (s.ip.toNat + 1) = 0) :
    stepResult s = .executed .load 0 ∧ ∃ t, step s = .next t ∧ t.mem = s.mem ∧ bitRead t.mem 0 = .ok t.acc := by
  have hat : s.AtInstr (.load 0) := ⟨hrun, (congrArg₂ decode h0 h1).trans (by decide)⟩
  obtain ⟨hres, hs⟩ := step_of_atInstr_load hat
  exact ⟨hres, _, hs, rfl, bitRead_eq_ok s.mem (by decide)⟩

/-- Settles O25: after 2047 steps from reset `ip` is 4094, and the last step, a LOAD 0, takes it to the halt. -/
theorem zeroSlotExecutesLoadZero : Obligations.ZeroSlotExecutesLoadZero := by
  refine ⟨fun s => step_of_zeroSlot, fun acc image s hs h0 h1 => ?_⟩
  have hip : s.ip.toNat = 4094 := by
    obtain ⟨s', hs', hip⟩ := core_run_ip (State.resetFrom_ip_add acc image) 2047
    obtain rfl := Host.Outcome.next.inj (hs'.symm.trans hs)
    exact hip
  have hrun : s.ip.toNat + 1 < 4096 := by omega
  obtain ⟨-, t, ht, -, hread⟩ := step_of_zeroSlot hrun (by rwa [hip]) (by rwa [hip])
  have hipt := step_ip_of_running hrun ht
  exact ⟨t, (core_run_succ_last hs).trans ht, stepResult_eq_halted.mpr (by omega), hread⟩

end Sys2Proof.Machine
end

section
/-! PROOFS. LOAD and STORE (spec/41_load_store.md): what the execute phase of each reads, writes and leaves. -/

namespace Sys2Proof.Machine

/-! ### LOAD (R81, R85, R86) -/

/-- A LOAD sets `acc` to what the bit read of its operand answers. -/
theorem exec_load_of_bitRead {a : Operand} {s : State} {v : Bit} (h : bitRead s.mem a.toNat = .ok v) :
    exec (.load a) s = .next { s with acc := v } := by
  rw [bitRead_eq_ok s.mem (byteIndex_toNat_lt a)] at h
  rw [exec_load_eq, Except.ok.inj h]

/-- Settles O38: the bit read decides what a LOAD gives, and both states answer the same. -/
theorem loadLetsOneBitThrough : Obligations.LoadLetsOneBitThrough := by
  intro a s u h
  have hread := bitRead_eq_ok u.mem (byteIndex_toNat_lt a)
  exact ⟨_, exec_load_of_bitRead (h.trans hread), exec_load_of_bitRead hread⟩

/-- The opcode of an instruction at byte offset `p` is the bit at bit address `8 * p + 7`. -/
theorem bitRead_opcodeBit (m : Memory) {p : Nat} (hp : p + 1 < 4096) :
    bitRead m (8 * p + 7) = .ok (decode (Memory.byteAt m p) (Memory.byteAt m (p + 1))).opcode.toBit := by
  obtain ⟨hopcode, -⟩ := instructionFieldsAsBitAddresses m p hp
  exact hopcode

/-- A LOAD of its own opcode bit reads the opcode LOAD. -/
theorem step_load_own_opcodeBit {a : Operand} {s : State} (hat : s.AtInstr (.load a))
    (ha : a.toNat = 8 * s.ip.toNat + 7) : step s = .next { s with ip := s.ip + 2, acc := 0 } := by
  have hread : bitRead s.mem a.toNat = .ok 0 := by
    obtain ⟨hrun, hi⟩ := hat
    rw [ha, bitRead_opcodeBit s.mem hrun, hi]
    rfl
  rw [step_of_atInstr hat, exec_load_of_bitRead hread]
  rfl

/-- Settles O11: inside the capacity, where every operand lies, the bit read answers the addressed bit. -/
theorem loadSetsAccToTheAddressedBit : Obligations.LoadSetsAccToTheAddressedBit := by
  refine ⟨fun a s => ?_, fun a => ⟨?_, encode_snd_toNat_eq_and _⟩, fun a s hat ha => ?_⟩
  · have hread := bitRead_eq_ok s.mem (byteIndex_toNat_lt a)
    exact ⟨_, exec_load_of_bitRead hread, bitOfByte_toNat _ _, hread, exec_load_of_bitRead hread⟩
  · rw [encode_fst_toNat_eq_or]
    exact Nat.zero_or _
  · exact ⟨_, step_load_own_opcodeBit hat ha, rfl⟩

theorem Opcode.toBit_eq_ite (o : Opcode) : o.toBit = if o = .store then 1 else 0 := by
  cases o <;> rfl

/-- Settles O16: R41's layout of an instruction's fields as bit reads, each taken by a LOAD. -/
theorem loadReadsInstructionBits : Obligations.LoadReadsInstructionBits := by
  intro s p a hp i
  obtain ⟨-, hhigh, hlow, -⟩ := instructionFieldsAsBitAddresses s.mem p hp
  refine ⟨fun ha => ?_, fun k hk ha => ?_, fun k hk ha => ?_⟩
  · rw [← Opcode.toBit_eq_ite]
    exact exec_load_of_bitRead (ha ▸ bitRead_opcodeBit s.mem hp)
  · exact exec_load_of_bitRead (ha ▸ hhigh k hk)
  · exact exec_load_of_bitRead (ha ▸ hlow k hk)

/-! ### STORE (R82) -/

/-- Writing the bit that is already held leaves every byte. -/
theorem Memory.byteAt_withBit_of_held {m : Memory} {a : Nat} {v : Bit} (h : bitRead m a = .ok v)
    (ha : byteIndex a < 4096) (x : Nat) : Memory.byteAt (Memory.withBit m a v) x = Memory.byteAt m x := by
  rw [bitRead_eq_ok m ha] at h
  obtain rfl := Except.ok.inj h
  rw [Memory.byteAt_withBit]
  by_cases hx : x = byteIndex a
  · rw [if_pos hx, hx, byteWithBit_same _ (bitIndex_lt a)]
  · rw [if_neg hx]

/-- Settles O12: `Memory.withBit` is the bit write that STORE makes, and its reads are known. -/
theorem storeWritesAccToTheAddressedBit : Obligations.StoreWritesAccToTheAddressedBit := by
  refine ⟨fun a s => ?_, fun a => ⟨encode_fst_toNat_eq_or _, encode_snd_toNat_eq_and _⟩⟩
  have ha := byteIndex_toNat_lt a
  exact ⟨_, exec_store_eq a s, bitWrite_eq_ok s.mem s.acc ha, bitRead_withBit_self s.mem s.acc ha,
    fun b => bitRead_withBit_ne s.mem s.acc, fun hheld => Memory.byteAt_withBit_of_held hheld ha⟩

/-- Settles O15: canonical Memories with the same bytes are the same data. -/
theorem storeOfHeldBitIsIdentity : Obligations.StoreOfHeldBitIsIdentity := by
  intro a s hwf hheld
  have ha := byteIndex_toNat_lt a
  have hmem : Memory.withBit s.mem a.toNat s.acc = s.mem :=
    canonicalMemoriesAreEqualData _ _ (Memory.wf_withBit hwf ha s.acc) hwf
      fun x _ => Memory.byteAt_withBit_of_held hheld ha x
  rw [exec_store_eq, hmem]

/-! ### Both instructions: the frame and completion (R69, R83) -/

/-- Settles O13: each next state is known, and a bit of the written byte other than the addressed one has another
address. -/
theorem executeFrame : Obligations.ExecuteFrame := by
  refine ⟨fun a s t h => ?_, fun a s t h => ?_⟩
  · obtain rfl := Host.Outcome.next.inj ((exec_load_eq a s).symm.trans h)
    exact ⟨rfl, fun _ => rfl⟩
  · obtain rfl := Host.Outcome.next.inj ((exec_store_eq a s).symm.trans h)
    refine ⟨rfl, rfl, fun x => Memory.byteAt_withBit_ne s.mem s.acc, fun k hk hne => ?_⟩
    have haddr : a.toNat ≠ bitAddress (byteIndex a.toNat) k := by
      intro haddr
      apply hne
      rw [effectiveAddress_eq, haddr, bitIndex_bitAddress _ hk]
    exact (Memory.getLsbD_withBit s.mem a.toNat s.acc _ hk).trans (if_neg haddr)

/-- Settles O14: a 15-bit operand addresses a bit inside the capacity, so LOAD and STORE both answer a next state. -/
theorem noInstructionFaults : Obligations.NoInstructionFaults := by
  refine ⟨byteIndex_operand_lt, fun i s => ?_⟩
  cases i with
  | load a => exact ⟨_, exec_load_eq a s⟩
  | store a => exact ⟨_, exec_store_eq a s⟩

end Sys2Proof.Machine
end

section
/-! PROOFS. Exceptions (spec/60_exceptions.md): the halted machine, R90. -/

namespace Sys2Proof.Machine

/-- Settles O20: the step of a halted machine answers the state it was given, so by induction on the number of steps a
run of any length does. -/
theorem haltedPersists : Obligations.HaltedPersists :=
  fun _ hhalt n => core_run_of_halted hhalt n

end Sys2Proof.Machine
end

section
/-! PROOFS. Reset and hazards (spec/70_reset_and_hazards.md): which images give the same machine, the first fetch, and when
a run from reset does not depend on `ACC_RESET`. -/

namespace Sys2Proof.Machine

/-! ### Reset (R105 to R107) -/

/-- Images whose first 4096 bytes are the same, missing bytes read as zero, give the same machine: both Memories are
canonical, so equal bytes make them equal data. -/
theorem State.resetFrom_congr (acc : Bit) {image image' : List Byte}
    (h : ∀ x, x < 4096 → image.getD x Memory.unlisted = image'.getD x Memory.unlisted) :
    State.resetFrom acc image = State.resetFrom acc image' := by
  have hmem : Memory.ofImage image = Memory.ofImage image' := by
    apply canonicalMemoriesAreEqualData _ _ (Memory.wf_ofImage image) (Memory.wf_ofImage image')
    intro x hx
    rw [Memory.byteAt_ofImage image hx, Memory.byteAt_ofImage image' hx, h x hx]
  rw [State.resetFrom, hmem, State.resetFrom]

/-- Appended copies of the default change no read with that default. -/
theorem getD_append_replicate_default {α : Type} (l : List α) (n x : Nat) (d : α) :
    (l ++ List.replicate n d).getD x d = l.getD x d := by
  rcases Nat.lt_or_ge x l.length with hx | hx
  · exact List.getD_append l _ d x hx
  · rw [List.getD_append_right l _ d x hx, List.getD_eq_default l d hx, List.getD_eq_getElem?_getD,
      List.getElem?_getD_replicate_default_eq]

/-- Settles O27: neither the cut at 4096 nor the appended zeros change a byte below 4096. -/
theorem imageIsTruncatedAndZeroPadded : Obligations.ImageIsTruncatedAndZeroPadded := by
  intro acc image
  refine ⟨State.resetFrom_congr acc fun x hx => ?_, fun n => State.resetFrom_congr acc fun x _ => ?_⟩
  · rw [List.getD_eq_getElem?_getD, List.getElem?_take_of_lt hx, List.getD_eq_getElem?_getD]
  · exact getD_append_replicate_default image n x Memory.unlisted

theorem State.resetFrom_running (acc : Bit) (image : List Byte) : (State.resetFrom acc image).halted = false :=
  State.halted_eq_false.mpr (by simp)

/-- The bytes at `ip` = 0 are the image's first two, zero where the image is shorter. -/
theorem fetch_resetFrom (acc : Bit) (image : List Byte) :
    fetch (State.resetFrom acc image) = some (image.getD 0 0, image.getD 1 0) := by
  have h0 : Memory.byteAt (Memory.ofImage image) 0 = image.getD 0 0 := Memory.byteAt_ofImage image (by decide)
  have h1 : Memory.byteAt (Memory.ofImage image) 1 = image.getD 1 0 := Memory.byteAt_ofImage image (by decide)
  rw [← h0, ← h1]
  exact fetch_of_running (State.resetFrom_running acc image)

/-- Settles O28: `ip` is 0 after reset, where the machine is running. -/
theorem firstStepFetchesOffsetZero : Obligations.FirstStepFetchesOffsetZero := by
  intro acc image
  refine ⟨rfl, rfl, ?_, fetch_resetFrom acc image⟩
  rw [stepResult_of_running (State.resetFrom_running acc image)]
  exact nofun

/-- Settles O29: the empty image lists no byte, so every byte reads as unlisted, 0. -/
theorem resetStateIsTheEmptyImage : Obligations.ResetStateIsTheEmptyImage :=
  ⟨reset_eq_resetFrom, rfl, fun _ => rfl⟩

/-! ### The open `ACC_RESET` (R109) -/

theorem decode_eq_load {b0 : Byte} (h : b0.toNat < 128) (b1 : Byte) : decode b0 b1 = .load (decodeOperand b0 b1) := by
  rw [decode, decodeOpcode_eq, if_pos h, Instr.ofParts_load]

/-- After reset with an image whose first byte has bit 7 clear, the machine is at a LOAD, the same for every
`ACC_RESET`. -/
theorem State.resetFrom_atInstr_load {image : List Byte} (h : (image.getD 0 0).toNat < 128) (acc : Bit) :
    (State.resetFrom acc image).AtInstr (.load (decodeOperand (image.getD 0 0) (image.getD 1 0))) := by
  have hrun := State.resetFrom_running acc image
  have hbytes := (fetch_of_running hrun).symm.trans (fetch_resetFrom acc image)
  obtain ⟨h0, h1⟩ := Prod.mk.inj (Option.some.inj hbytes)
  refine ⟨State.halted_eq_false.mp hrun, ?_⟩
  rw [h0, h1, decode_eq_load h]

/-- States that agree on Memory and `ip` and stand at a LOAD run alike from there: the LOAD overwrites `acc`. -/
theorem run_succ_congr_of_atInstr_load {s u : State} {a : Operand} (hs : s.AtInstr (.load a))
    (hu : u.AtInstr (.load a)) (hmem : s.mem = u.mem) (hip : s.ip = u.ip) (n : Nat) :
    run (n + 1) s = run (n + 1) u := by
  obtain ⟨hress, hsteps⟩ := step_of_atInstr_load hs
  obtain ⟨hresu, hstepu⟩ := step_of_atInstr_load hu
  rw [run_succ_of_executed hress hsteps, run_succ_of_executed hresu hstepu, hmem, hip]

/-- Settles O37: the two reset states differ in `acc` alone, and the first step of both is the same LOAD. -/
theorem firstLoadHidesAccReset : Obligations.FirstLoadHidesAccReset := by
  intro image n h hn
  obtain ⟨n, rfl⟩ := Nat.exists_eq_add_one.mpr hn
  exact run_succ_congr_of_atInstr_load (State.resetFrom_atInstr_load h 0) (State.resetFrom_atInstr_load h 1) rfl rfl n

end Sys2Proof.Machine
end

section
/-! PROOFS. Table words (spec/95_test_vectors.md section 2.1): a word below 2^16, numbered as the opcode table numbers it. -/

namespace Sys2Proof.Machine

/-- A table word always has its two bytes, so the decoder never answers `truncated` and reads the word itself. -/
theorem decodeTableWord_eq (nbits w : Nat) : decodeTableWord nbits w = some (decodeWord (tableWord nbits w)) := rfl

theorem tableWord_toNat {w : Nat} (h : w < 0x10000) : (tableWord 16 w).toNat = w := by
  rw [tableWord, BitVec.toNat_ofNat, Nat.mod_mod]
  exact Nat.mod_eq_of_lt h

/-- The lower half of the table numbers is LOAD, with the number as its operand. -/
theorem decodeTableWord_eq_load {w : Nat} (h : w < 0x8000) :
    decodeTableWord 16 w = some (.load (BitVec.ofNat 15 w)) := by
  have hw : (tableWord 16 w).toNat = w := tableWord_toNat (by omega)
  rw [decodeTableWord_eq, decodeWord_eq_load (by rwa [hw]), hw]

/-- The upper half of the table numbers is STORE, with the number less 0x8000 as its operand. -/
theorem decodeTableWord_eq_store {w : Nat} (hlo : 0x8000 ≤ w) (hhi : w < 0x10000) :
    decodeTableWord 16 w = some (.store (BitVec.ofNat 15 (w - 0x8000))) := by
  have hw : (tableWord 16 w).toNat = w := tableWord_toNat hhi
  rw [decodeTableWord_eq, decodeWord_eq_store (by rwa [hw]), hw]

/-- Settles O3: three of the words are below 0x8000, three are not. -/
theorem knownWordsDecode : Obligations.KnownWordsDecode :=
  ⟨decodeTableWord_eq_load (by decide), decodeTableWord_eq_load (by decide), decodeTableWord_eq_load (by decide),
    decodeTableWord_eq_store (by decide) (by decide), decodeTableWord_eq_store (by decide) (by decide),
    decodeTableWord_eq_store (by decide) (by decide)⟩

end Sys2Proof.Machine
end
